-- ==== Sys2Proof/Word.lean ====
section
/-! DEFINITION. The widths the block works on (R8): a byte is 8 bits, a request word is 32 bits. -/

namespace Sys2Proof

/-- A byte: 8 bits, unsigned (R8, R26). -/
abbrev Byte := BitVec 8

/-- A request word: 32 bits, bit 31 the most significant (R40). -/
abbrev Word := BitVec 32

end Sys2Proof
end

