-- ==== Sys2Proof/Config.lean ====
section
/-! DEFINITION. The configuration inputs of the block (R5 to R8): sampled at reset and held until the next reset (R20,
R160), written by no operation. The model takes them as data: every statement holds for every configuration unless it says
otherwise. -/

namespace Sys2Proof

/-- The configuration record `Cfg` of R8. Each field is one byte, as `CRRD 0` to `CRRD 2` read it (R14). -/
structure Cfg where
  /-- `MAX_PAYLOAD`, the builder's largest payload; legal 0 to 60 (R5). -/
  maxPayload : Byte
  /-- `MAX_SPI_LEN`, the size of the data-ready range; legal 0 to 191, value OPEN (R6). -/
  maxSpiLen : Byte
  /-- `FULL_COUNT`, the count reported for the boundary code 0x40; legal 0 to 255 (R7). -/
  fullCount : Byte
deriving DecidableEq, Repr

/-- The configuration of `State.reset`: the spec's defaults 35 (R5) and 64 (R7), and 41 for `MAX_SPI_LEN`.
DESIGN CHOICE, unsafe: R6 leaves `MAX_SPI_LEN` OPEN; 41 is the value the spec's own vectors use unless they say
otherwise (`95_test_vectors.md`). Log 6. -/
def standardCfg : Cfg := { maxPayload := 35, maxSpiLen := 41, fullCount := 64 }

end Sys2Proof
end

