-- ==== Sys2Proof/Syntax.lean ====
section
/-! DEFINITION. The operations of the block: one constructor for each row of `spec/opcode_table.json` (R41), the two
reserved rows among them (R43). Operands are the fields of the request word as they stand (R40). -/

namespace Sys2Proof

/-- The buffer select of `HWR`, `HRD`, `CSTX`, `CSRX` (R25): bit 24 of the request, 0 `TXBUF`, 1 `RXBUF`. -/
inductive BufSel where
  /-- `TXBUF`, written `T` (R63). -/
  | tx
  /-- `RXBUF`, written `R` (R63). -/
  | rx
deriving DecidableEq, Repr

/-- One request, decoded. -/
inductive Instr where
  /-- `HWR buf, addr, data` (R130). -/
  | hwr (sel : BufSel) (addr data : Byte)
  /-- `HRD buf, addr` (R131). -/
  | hrd (sel : BufSel) (addr : Byte)
  /-- `CRRD n` (R132). -/
  | crrd (n : Byte)
  /-- `CSTX buf, base, len` (R77). -/
  | cstx (sel : BufSel) (base len : Byte)
  /-- `CSRX buf, base, len, ptype` (R78). -/
  | csrx (sel : BufSel) (base len ptype : Byte)
  /-- `STDEC raw` (R93). -/
  | stdec (raw : Byte)
  /-- `STRDY kind, code` (R94); the kind field is 4 bits, of which 11 to 15 are not kinds (R58). -/
  | strdy (kind : BitVec 4) (code : Byte)
  /-- `FBQ` (R113). -/
  | fbq
  /-- `FBX dir, command, length` (R114); `isWrite` is bit 24. -/
  | fbx (isWrite : Bool) (command length : Byte)
  /-- `FPQ` (R115). -/
  | fpq
  /-- `FPX payloadLength, ptype` (R116). -/
  | fpx (payloadLength ptype : Byte)
  /-- A word with op 0x0: reserved, not an operation (R43); `rest` is bits 27:0. -/
  | reserved0 (rest : BitVec 28)
  /-- A word with op 0xC to 0xF: reserved, not an operation (R43); `op` is bits 31:28, `rest` bits 27:0. -/
  | reservedCF (op : BitVec 4) (rest : BitVec 28)
deriving DecidableEq, Repr

end Sys2Proof
end

