-- ==== Sys2Proof/WellFormed.lean ====
section
/-! DEFINITION. What is well formed: an instruction that some request word stands for, and a configuration inside its
legal ranges. -/

namespace Sys2Proof

/-- Every operand of an operation fills its field exactly, so the one check is the op code of the second reserved row,
which is 0xC to 0xF (R43). An operand outside the range its operation accepts is well formed here: it is answered
`InvalidArgument` after decoding (R44). -/
def Instr.wf : Instr → Bool
  | .reservedCF op _ => decide (0xC ≤ op.toNat)
  | .reserved0 _ => true
  | .hwr _ _ _ => true
  | .hrd _ _ => true
  | .crrd _ => true
  | .cstx _ _ _ => true
  | .csrx _ _ _ _ => true
  | .stdec _ => true
  | .strdy _ _ => true
  | .fbq => true
  | .fbx _ _ _ => true
  | .fpq => true
  | .fpx _ _ => true

/-- The well-formedness check of R8: `MAX_PAYLOAD ≤ 60 ∧ MAX_SPI_LEN ≤ 191 ∧ FULL_COUNT ≤ 255`; the last holds of
every byte. -/
def Cfg.wf (c : Cfg) : Bool :=
  decide (c.maxPayload.toNat ≤ 60) && decide (c.maxSpiLen.toNat ≤ 191) && decide (c.fullCount.toNat ≤ 255)

end Sys2Proof
end

