-- ==== Sys2Proof/Decode.lean ====
section
/-! DEFINITION. The encoding of requests (R40 to R43): the fields of a request word, the decoder (total: every word is
an operation, a reserved word, or rejected by name) and after it the encoder, both from the table of R41; and the table's
match and mask as data. -/

namespace Sys2Proof

/-! ## The fields of a request word (R40) -/

/-- Bits 31:28, the operation code. -/
def opField (w : Word) : BitVec 4 := w.extractLsb' 28 4
/-- Bits 27:25, zero in every request. -/
def zeroField (w : Word) : BitVec 3 := w.extractLsb' 25 3
/-- Bit 24, the flag `f`. -/
def fField (w : Word) : BitVec 1 := w.extractLsb' 24 1
/-- Bits 23:16, the first operand `a`. -/
def aField (w : Word) : Byte := w.extractLsb' 16 8
/-- Bits 15:8, the second operand `b`. -/
def bField (w : Word) : Byte := w.extractLsb' 8 8
/-- Bits 7:0, the third operand `c`. -/
def cField (w : Word) : Byte := w.extractLsb' 0 8
/-- Bits 27:0, the free bits of a reserved word (R43). -/
def restField (w : Word) : BitVec 28 := w.extractLsb' 0 28
/-- Bits 15:12, the upper half of `b`, zero in `STRDY` (R41). -/
def bHighField (w : Word) : BitVec 4 := w.extractLsb' 12 4
/-- Bits 11:8, the `kind` operand of `STRDY` (R41). -/
def kindField (w : Word) : BitVec 4 := w.extractLsb' 8 4

/-- The buffer that a select bit names (R41). -/
def selOfBit (f : BitVec 1) : BufSel := if f = 0 then .tx else .rx
/-- The select bit of a buffer (R25, R63). -/
def bitOfSel : BufSel → BitVec 1
  | .tx => 0
  | .rx => 1
/-- The direction that bit 24 of `FBX` gives (R41, R63). -/
def dirOfBit (f : BitVec 1) : Bool := f == 1
/-- The bit of a direction: `RD` 0, `WR` 1 (R63). -/
def bitOfDir (isWrite : Bool) : BitVec 1 := if isWrite then 1 else 0

/-! ## The decoder -/

/-- Why the decoder rejects a word: the op code is one of 0x1 to 0xB and a must-be-zero bit is set (R42). -/
inductive Rejection where
  /-- One of bits 27:25, zero in every request, is set; `op` is the word's operation code. -/
  | zeroFieldSet (op : BitVec 4)
  /-- A field that operation `op` does not use is not zero. -/
  | unusedFieldSet (op : BitVec 4)
deriving DecidableEq, Repr

/-- Decodes the word as `i` when the fields its operation does not use are zero, and rejects it by name otherwise
(R42). -/
def requireZero (w : Word) (unusedZero : Bool) (i : Instr) : Except Rejection Instr :=
  if zeroField w ≠ 0 then .error (.zeroFieldSet (opField w))
  else if unusedZero then .ok i
  else .error (.unusedFieldSet (opField w))

/-- The decoder (R41 to R43). The reserved codes 0x0 and 0xC to 0xF are decoded whatever their other bits hold. -/
def decode (w : Word) : Except Rejection Instr :=
  match (opField w).toNat with
  | 0x0 => .ok (.reserved0 (restField w))
  | 0x1 => requireZero w (cField w == 0) (.hwr (selOfBit (fField w)) (aField w) (bField w))
  | 0x2 => requireZero w (bField w == 0 && cField w == 0) (.hrd (selOfBit (fField w)) (aField w))
  | 0x3 => requireZero w (fField w == 0 && bField w == 0 && cField w == 0) (.crrd (aField w))
  | 0x4 => requireZero w (cField w == 0) (.cstx (selOfBit (fField w)) (aField w) (bField w))
  | 0x5 => requireZero w true (.csrx (selOfBit (fField w)) (aField w) (bField w) (cField w))
  | 0x6 => requireZero w (fField w == 0 && aField w == 0 && bField w == 0) (.stdec (cField w))
  | 0x7 => requireZero w (fField w == 0 && aField w == 0 && bHighField w == 0) (.strdy (kindField w) (cField w))
  | 0x8 => requireZero w (fField w == 0 && aField w == 0 && bField w == 0 && cField w == 0) .fbq
  | 0x9 => requireZero w (cField w == 0) (.fbx (dirOfBit (fField w)) (aField w) (bField w))
  | 0xA => requireZero w (fField w == 0 && aField w == 0 && bField w == 0 && cField w == 0) .fpq
  | 0xB => requireZero w (fField w == 0 && aField w == 0) (.fpx (bField w) (cField w))
  | _ => .ok (.reservedCF (opField w) (restField w))

/-! ## The encoder -/

/-- A request word from its fields: `(op << 28) | (f << 24) | (a << 16) | (b << 8) | c`, bits 27:25 zero (R40). -/
def pack (op : BitVec 4) (f : BitVec 1) (a b c : Byte) : Word := op ++ 0#3 ++ f ++ a ++ b ++ c

/-- The word of an instruction (R41, R63). -/
def encode : Instr → Word
  | .hwr sel addr data => pack 0x1 (bitOfSel sel) addr data 0
  | .hrd sel addr => pack 0x2 (bitOfSel sel) addr 0 0
  | .crrd n => pack 0x3 0 n 0 0
  | .cstx sel base len => pack 0x4 (bitOfSel sel) base len 0
  | .csrx sel base len ptype => pack 0x5 (bitOfSel sel) base len ptype
  | .stdec raw => pack 0x6 0 0 0 raw
  | .strdy kind code => pack 0x7 0 0 (0#4 ++ kind) code
  | .fbq => pack 0x8 0 0 0 0
  | .fbx isWrite command length => pack 0x9 (bitOfDir isWrite) command length 0
  | .fpq => pack 0xA 0 0 0 0
  | .fpx payloadLength ptype => pack 0xB 0 0 payloadLength ptype
  | .reserved0 rest => 0#4 ++ rest
  | .reservedCF op rest => op ++ rest

/-! ## The opcode table as data (R41) -/

/-- The mnemonic of an instruction, as `spec/opcode_table.json` spells it. -/
def mnemonic : Instr → String
  | .hwr _ _ _ => "HWR"
  | .hrd _ _ => "HRD"
  | .crrd _ => "CRRD"
  | .cstx _ _ _ => "CSTX"
  | .csrx _ _ _ _ => "CSRX"
  | .stdec _ => "STDEC"
  | .strdy _ _ => "STRDY"
  | .fbq => "FBQ"
  | .fbx _ _ _ => "FBX"
  | .fpq => "FPQ"
  | .fpx _ _ => "FPX"
  | .reserved0 _ => "RESERVED_0"
  | .reservedCF _ _ => "RESERVED_C_F"

/-- A row of the opcode table: a word is that row's when `word & mask = match`. -/
structure OpRow where
  name : String
  pattern : Word
  mask : Word
deriving DecidableEq, Repr

/-- The eleven operations with their match and mask (R41). -/
def operationRows : List OpRow :=
  [ { name := "HWR", pattern := 0x10000000, mask := 0xFE0000FF },
    { name := "HRD", pattern := 0x20000000, mask := 0xFE00FFFF },
    { name := "CRRD", pattern := 0x30000000, mask := 0xFF00FFFF },
    { name := "CSTX", pattern := 0x40000000, mask := 0xFE0000FF },
    { name := "CSRX", pattern := 0x50000000, mask := 0xFE000000 },
    { name := "STDEC", pattern := 0x60000000, mask := 0xFFFFFF00 },
    { name := "STRDY", pattern := 0x70000000, mask := 0xFFFFF000 },
    { name := "FBQ", pattern := 0x80000000, mask := 0xFFFFFFFF },
    { name := "FBX", pattern := 0x90000000, mask := 0xFE0000FF },
    { name := "FPQ", pattern := 0xA0000000, mask := 0xFFFFFFFF },
    { name := "FPX", pattern := 0xB0000000, mask := 0xFFFF0000 } ]

/-- The two rows of reserved words (`opcode_table.json`, R43). -/
def reservedRows : List OpRow :=
  [ { name := "RESERVED_0", pattern := 0x00000000, mask := 0xF0000000 },
    { name := "RESERVED_C_F", pattern := 0xC0000000, mask := 0xC0000000 } ]

/-- A word belongs to a row when its masked bits are the row's pattern (R41). -/
def OpRow.holds (r : OpRow) (w : Word) : Bool := w &&& r.mask == r.pattern

/-! ## The host's entry -/

/-- The request word that the host's number stands for: the low `nbits` bits of `w`, zeros above. A request is one 32-bit word
that is stored in no memory (R33), so it has no byte order (R26) and the table's bit numbers are the word's. Log 16. -/
def wordOfTable (nbits w : Nat) : Word := BitVec.ofNat 32 (w % 2 ^ nbits)

/-- The instruction the decoder reads from a table word, none where it rejects the word. -/
def decodeTableWord (nbits w : Nat) : Option Instr :=
  match decode (wordOfTable nbits w) with
  | .ok i => some i
  | .error _ => none

end Sys2Proof
end

