-- ==== Sys2Proof/Machine/Constants.lean ====
section
/-! DEFINITION. The fixed constants of R4, the same in every block. UNVERIFIED, unsafe: the source's numerals are unaudited
(N3, log 13); each is named once here so that an audit can change it in one place. -/

namespace Sys2Proof.Machine

/-- `SEED`, the checksum seed (R4). -/
def seed : Byte := 0x5F
/-- `MARKER`, the forwarding marker at frame offset 0 (R4). -/
def marker : Byte := 0x01
/-- `CMD_STATUS`, the command byte of a status query (R4). -/
def cmdStatus : Byte := 0x00
/-- `CMD_DATA`, the command byte of a data read or write (R4, R60); the block never requires it. -/
def cmdData : Byte := 0xF0
/-- `DR_BASE`, the first code of the data-ready range (R4). -/
def drBase : Nat := 0x40
/-- `FRAME_MAX`, the most bytes in a frame and the size of each frame buffer (R4). -/
def frameMax : Nat := 64
/-- `WRITE_BIT`, PTYPE bit 7 (R4). -/
def writeBit : Byte := 0x80
/-- `LEN_MASK`, PTYPE bits 6 to 0 (R4). -/
def lenMask : Byte := 0x7F

end Sys2Proof.Machine
end

