-- ==== Sys2Proof/Machine/Memory.lean ====
section
/-! DEFINITION. One frame buffer of the block (R15, R16, R25): 64 bytes at addresses 0 to 63, held as a list of
(address, byte) pairs in one canonical form: addresses strictly rising and below 64, and no entry equal to what an
unlisted address reads as. -/

namespace Sys2Proof.Machine

/-- The contents of one buffer. -/
abbrev Memory := List Host.Cell

/-- What an address that is not listed reads as. DESIGN CHOICE, unsafe: the spec gives the bytes of a buffer no reset value
(R20, U1); every contents a buffer can have is some list, and 0x00 only fixes how a list writes it down. Log 5. -/
def unlistedByte : Byte := 0x00

/-- The canonical form from address `lo` on. -/
def Memory.wfFrom (lo : Nat) : Memory → Bool
  | [] => true
  | (a, v) :: rest => decide (lo ≤ a) && decide (a < frameMax) && decide (v ≠ unlistedByte) && Memory.wfFrom (a + 1) rest

/-- The canonical form of a buffer. -/
def Memory.wf (m : Memory) : Bool := Memory.wfFrom 0 m

/-- The byte at an address: the primitive `buf(sel)[a]` of R8's notation. A read changes nothing (R28). -/
def Memory.read : Memory → Nat → Byte
  | [], _ => unlistedByte
  | (k, v) :: rest, a => if k = a then v else Memory.read rest a

/-- The buffer without an entry at `a`, so that `a` reads as `unlistedByte`. -/
def Memory.erase (m : Memory) (a : Nat) : Memory := m.filter fun cell => cell.1 != a

/-- The buffer with the entry `(a, v)` in its place among rising addresses. -/
def Memory.insert : Memory → Nat → Byte → Memory
  | [], a, v => [(a, v)]
  | (k, w) :: rest, a, v =>
    if a < k then (a, v) :: (k, w) :: rest
    else if a = k then (a, v) :: rest
    else (k, w) :: Memory.insert rest a v

/-- The primitive `buf(sel)[a] <- v`; writing what an unlisted address reads as removes the entry. -/
def Memory.write (m : Memory) (a : Nat) (v : Byte) : Memory :=
  if v = unlistedByte then Memory.erase m a else Memory.insert m a v

/-- The bytes `B[base .. base + len)`, the first at `base` (R9's notation, section 7 of `00_scope.md`). -/
def Memory.slice (m : Memory) (base : Nat) : Nat → List Byte
  | 0 => []
  | len + 1 => Memory.read m base :: Memory.slice m (base + 1) len

/-- The buffer whose bytes from address `a` on are the given ones, every other address unlisted. -/
def Memory.ofBytesFrom (a : Nat) : List Byte → Memory
  | [] => []
  | v :: rest =>
    if v = unlistedByte then Memory.ofBytesFrom (a + 1) rest else (a, v) :: Memory.ofBytesFrom (a + 1) rest

/-- The buffer that holds a power-on draw (R20, U1): byte `i` of the list at address `i`; bytes past the 64th are
dropped and an address past the list's end is unlisted, so every draw is the list of its 64 bytes. Log 4. -/
def Memory.ofDraw (draw : List Byte) : Memory := Memory.ofBytesFrom 0 (draw.take frameMax)

end Sys2Proof.Machine
end

