-- ==== Sys2Proof/Machine/State.lean ====
section
/-! DEFINITION. The state of one block (`10_state.md`), the host's moves and the block's responses, the reasons a step can
stop, and the state after reset. -/

namespace Sys2Proof.Machine

/-! ## The response (R45, R62) -/

/-- The error code of a response: the four values the block returns, 0 to 3 in this order (R62, U13). -/
inductive Err where
  /-- 0: the operation was performed. -/
  | ok
  /-- 1: `FPX` found the response checksum wrong. -/
  | checksumMismatch
  /-- 2: an operand was out of range; nothing was performed. -/
  | invalidArgument
  /-- 3: the word is no operation; nothing was performed. -/
  | illegalRequest
deriving DecidableEq, Repr

/-- A response as a record (R45): the error code and every result field any operation has, at its width. DESIGN CHOICE,
unsafe: a field that the operation does not have is zero (log 9). -/
structure Response where
  err : Err
  /-- `HRD`, `CRRD`: 8 bits. -/
  data : Byte := 0
  /-- `CSTX`: 8 bits. -/
  csum : Byte := 0
  /-- `CSRX`: 1 bit. -/
  ok : Bool := false
  /-- `STDEC`, `FPQ`: 12 bits, kind above code (R58). -/
  status : BitVec 12 := 0
  /-- `STRDY`: 8 bits. -/
  count : Byte := 0
  /-- `FBQ`, `FBX`: 7 bits. -/
  txlen : BitVec 7 := 0
  /-- `FBX`: 8 bits. -/
  ptype : Byte := 0
  /-- `FBX`: 1 bit. -/
  clamped : Bool := false
  /-- `FPX`: 6 bits. -/
  off : BitVec 6 := 0
  /-- `FPX`: 7 bits. -/
  n : BitVec 7 := 0
deriving DecidableEq, Repr

/-! ## The host's moves (R177) -/

/-- What the host does to the block (R177): it issues a request or asserts reset. A request to a busy block is a move it
does not have (R170, log 12). -/
inductive HostMove where
  /-- Issues a request word, any of the 2^32 (R40). -/
  | request (w : Word)
  /-- Asserts and releases reset (R160) with the configuration inputs then present and the power-on draw of each buffer, the
  bytes that the buffers then hold (R20, U1). -/
  | reset (cfg : Cfg) (txDraw rxDraw : List Byte)
deriving DecidableEq, Repr

/-! ## The state -/

/-- The state of one block: the table at the head of `10_state.md`, the configuration it holds since reset (R20), and two
fields of the model's own, the host's moves not yet taken and the responses given since reset (log 1). -/
structure State where
  /-- The configuration inputs, sampled at reset (R8, R14, R20). -/
  cfg : Cfg
  /-- `TXBUF` (R15). -/
  txbuf : Memory
  /-- `TXLEN`, 7 bits: the number of valid bytes of the frame in `TXBUF`, 0 for no valid frame (R17). -/
  txlen : BitVec 7
  /-- `RXBUF` (R16). -/
  rxbuf : Memory
  /-- `DIAG.UNK`, sticky (R12). -/
  diagUnk : Bool
  /-- `DIAG_RAW` (R13). -/
  diagRaw : Byte
  /-- MODEL's own: the host's moves not yet taken, the next one first. DESIGN CHOICE, safe, log 1. -/
  inputs : List HostMove
  /-- MODEL's own: the responses given since reset, the newest first (R178). DESIGN CHOICE, safe, log 1. -/
  responses : List Response
deriving DecidableEq, Repr

/-- Why the machine can stop with a fault. The spec has no such case (R9 item 5, R141). -/
inductive Fault where
  /-- Raised by the memory operations of `Machine/Ops.lean` for an access past address 63, which no rule of the spec makes
  (R30). Safe: no request in a well-formed configuration reaches it. DESIGN CHOICE, log 8. -/
  | noSuchAddress
deriving DecidableEq, Repr

/-- Why the machine can refuse. -/
inductive Refusal where
  /-- The host's name for an instruction without a meaning. No arm of `exec` answers it. Safe. -/
  | notModelled (mnemonic : String)
  /-- Raised by the step, for a request or a reset with a configuration outside its legal ranges, which the spec refuses
  (R5, R6, R8, U14). Safe: the spec gives no behaviour for it. Log 7. -/
  | illFormedConfiguration
deriving DecidableEq, Repr

/-- The three outcomes of a step of this machine. -/
abbrev Result := Host.Outcome State Fault Refusal

/-! ## Reset (R20, R160) -/

/-- The state after reset with a configuration and a power-on draw of each buffer: `TXLEN = 0`, `DIAG.UNK = 0`,
`DIAG_RAW = 0x00`, the buffers at the draw, the configuration inputs sampled, the block idle (R20, R160). A claim about
reset holds for every configuration and every draw. -/
def State.resetWith (cfg : Cfg) (txDraw rxDraw : List Byte) : State :=
  { cfg := cfg, txbuf := Memory.ofDraw txDraw, txlen := 0, rxbuf := Memory.ofDraw rxDraw, diagUnk := false, diagRaw := 0x00,
    inputs := [], responses := [] }

/-- The machine right after reset. DESIGN CHOICE, unsafe: of the states that R160 allows it names the one with the spec's
default configuration and `MAX_SPI_LEN` 41 (log 6) and every byte of both buffers drawn as 0x00 (log 4). -/
def State.reset : State := State.resetWith standardCfg [] []

end Sys2Proof.Machine
end

