-- ==== Sys2Proof/Machine/Ops.lean ====
section
/-! DEFINITION. The shared operations of the block: reading and writing buffer bytes, the control registers, responding,
raising an error, and the reset input. There is no trap entry and no return from one (R141, R147): raising an error is
responding with its code and writing nothing. -/

namespace Sys2Proof.Machine

/-! ## Buffers (R25, section 7 of `00_scope.md`) -/

/-- `buf(sel)`: `TXBUF` or `RXBUF` (R25). -/
def State.buf (s : State) : BufSel → Memory
  | .tx => s.txbuf
  | .rx => s.rxbuf

/-- The byte `buf(sel)[a]`. -/
def State.byte (s : State) (sel : BufSel) (a : Nat) : Byte := Memory.read (s.buf sel) a

/-- The bytes `buf(sel)[base .. base + len)`. -/
def State.bytes (s : State) (sel : BufSel) (base len : Nat) : List Byte := Memory.slice (s.buf sel) base len

/-- The state with `buf(sel)[a] <- v` done. -/
def State.setByte (s : State) (sel : BufSel) (a : Nat) (v : Byte) : State :=
  match sel with
  | .tx => { s with txbuf := Memory.write s.txbuf a v }
  | .rx => { s with rxbuf := Memory.write s.rxbuf a v }

/-- `MemRead(sel, a, 1)`, handed to the rest of the operation. An address past 63 does not exist (R25, R30). -/
def State.memRead (s : State) (sel : BufSel) (a : Nat) (k : Byte → Result) : Result :=
  if a < frameMax then k (s.byte sel a) else .fault .noSuchAddress

/-- A read of the window `buf(sel)[base .. base + len)`, handed to the rest of the operation; never wrapped (R30). -/
def State.memWindow (s : State) (sel : BufSel) (base len : Nat) (k : List Byte → Result) : Result :=
  if base + len ≤ frameMax then k (s.bytes sel base len) else .fault .noSuchAddress

/-- `MemWrite(sel, a, 1, v)`, then the rest of the operation on the state it leaves (R30). -/
def State.memWrite (s : State) (sel : BufSel) (a : Nat) (v : Byte) (k : State → Result) : Result :=
  if a < frameMax then k (s.setByte sel a v) else .fault .noSuchAddress

/-- `TXLEN <- n`; `n` is at most 64 wherever the block writes it (R17, log 15). -/
def State.setTxlen (s : State) (n : Nat) : State := { s with txlen := BitVec.ofNat 7 n }

/-! ## Control registers (R14, R132) -/

/-- The value of control register `n`, none for a number that is no register (R14): the configuration inputs, `TXLEN` and
`DIAG.UNK` widened with zeros, `DIAG_RAW`. -/
def State.controlRegister (s : State) (n : Byte) : Option Byte :=
  match n.toNat with
  | 0 => some s.cfg.maxPayload
  | 1 => some s.cfg.maxSpiLen
  | 2 => some s.cfg.fullCount
  | 3 => some (s.txlen.setWidth 8)
  | 4 => some (if s.diagUnk then 1 else 0)
  | 5 => some s.diagRaw
  | _ => none

/-! ## Responses and errors (R140, R141) -/

/-- The number of an error code (R62). -/
def errCode : Err → BitVec 3
  | .ok => 0
  | .checksumMismatch => 1
  | .invalidArgument => 2
  | .illegalRequest => 3

/-- `respond(err, fields...)`: ends the operation and gives the host the response (R45, R140). -/
def State.respond (s : State) (r : Response) : Result := .next { s with responses := r :: s.responses }

/-- `raise E()`: the same as responding with the code of `E`, every result field zero, no state written (R45, R141). The
one shared operation for every `InvalidArgument` and `IllegalRequest`. -/
def State.raise (s : State) (e : Err) : Result := s.respond { err := e }

/-! ## The reset input (R160, R161) -/

/-- What asserting and releasing reset does in any state: the state of R20 with the configuration inputs and the draw given,
the host's later moves still to come (log 11). A configuration outside its legal ranges is refused (R8, U14). -/
def State.applyReset (s : State) (cfg : Cfg) (txDraw rxDraw : List Byte) : Result :=
  if cfg.wf then .next { State.resetWith cfg txDraw rxDraw with inputs := s.inputs }
  else .refused .illFormedConfiguration

end Sys2Proof.Machine
end

