-- ==== Sys2Proof/Machine/Operands.lean ====
section
/-! DEFINITION. The operand forms of the operations: the window and address bounds (R30, R44), the clamped length (R102), the
PTYPE byte (R50 to R52), and the 12-bit `ModuleStatus` value (R58). Bounds are naturals, never reduced (R76). -/

namespace Sys2Proof.Machine

/-! ## Bounds (R44) -/

/-- An address operand of `HWR` and `HRD` is accepted: 0 to 63 (R130, R131). -/
def addressOk (addr : Byte) : Bool := decide (addr.toNat ≤ 63)

/-- The window of `CSTX` is accepted: it ends at address 64 or before (R77). -/
def windowOk (base len : Byte) : Bool := decide (base.toNat + len.toNat ≤ 64)

/-- The window of `CSRX` is accepted: the check byte after it is at address 63 or before (R78). -/
def checkedWindowOk (base len : Byte) : Bool := decide (base.toNat + len.toNat ≤ 63)

/-- The payload length of `FPX` is accepted: its checksum byte is at address 63 or before (R116). -/
def payloadLengthOk (payloadLength : Byte) : Bool := decide (payloadLength.toNat ≤ 61)

/-! ## The clamped length (R102) -/

/-- `len_c = min(length, MAX_PAYLOAD)`: a saturation, not a mask and not a rejection (R102). -/
def clampLength (cfg : Cfg) (length : Nat) : Nat := min length cfg.maxPayload.toNat

/-- `clamped`: the requested length was above the maximum (R114). -/
def wasClamped (cfg : Cfg) (length : Nat) : Bool := decide (cfg.maxPayload.toNat < length)

/-! ## PTYPE (R50 to R52) -/

/-- `pack_ptype(l, w)`: `l | 0x80` for a write, `l & 0x7F` for a read (R51), for a length `l` of 0 to 127; of a longer one it
takes the low 8 bits (DESIGN CHOICE, log 19). -/
def packPtype (l : Nat) (isWrite : Bool) : Byte :=
  if isWrite then BitVec.ofNat 8 l ||| writeBit else BitVec.ofNat 8 l &&& lenMask

/-- `W(p) = p[7]`: the exchange is write-type (R52). -/
def ptypeIsWrite (p : Byte) : Bool := p.getLsbD 7

/-- `LEN(p) = p[6:0] = p & 0x7F` (R52). -/
def ptypeLen (p : Byte) : Nat := (p &&& lenMask).toNat

/-! ## ModuleStatus (R58) -/

/-- The kinds of a status: nine fixed ones, `data_ready` and `unknown`, in the order of R58. -/
inductive Kind where
  | disabled
  | userStopped
  | bufferFullCrcOk
  | bufferFullCrcError
  | communicationMode
  | programmingMode
  | debugMode
  | slowMode
  | noModuleDetected
  | dataReady
  | unknown
deriving DecidableEq, Repr

/-- The number of a kind, 0 to 10 (R58). -/
def kindNumber : Kind → BitVec 4
  | .disabled => 0
  | .userStopped => 1
  | .bufferFullCrcOk => 2
  | .bufferFullCrcError => 3
  | .communicationMode => 4
  | .programmingMode => 5
  | .debugMode => 6
  | .slowMode => 7
  | .noModuleDetected => 8
  | .dataReady => 9
  | .unknown => 10

/-- A `ModuleStatus` value: a kind and the raw status byte it was decoded from (R58). -/
structure ModuleStatus where
  kind : Kind
  code : Byte
deriving DecidableEq, Repr

/-- The 12 bits of a `ModuleStatus` value: `kind` in 11:8, `code` in 7:0 (R58). -/
def statusBits (st : ModuleStatus) : BitVec 12 := kindNumber st.kind ++ st.code

end Sys2Proof.Machine
end

