-- ==== Sys2Proof/Machine/Checksum.lean ====
section
/-! DEFINITION. The Checksum Engine (`40_checksum_engine.md`): the pure functions `fold`, `computeTx`, `verifyRx` and the
operations `CSTX` and `CSRX` that run them over a window of a buffer. No accumulator is state (R79). -/

namespace Sys2Proof.Machine

/-- `fold(S)`: the exclusive or of all the bytes, 0x00 for none (R70). -/
def fold (bytes : List Byte) : Byte := bytes.foldl (· ^^^ ·) 0x00

/-- `computeTx(S) = 0x5F ^ fold(S)` (R71). -/
def computeTx (bytes : List Byte) : Byte := seed ^^^ fold bytes

/-- `verifyRx(S, p, L)`: the byte after the first `L` equals `0x5F ^ p ^ fold` of those (R72). For fewer than `L + 1` bytes,
outside the function's domain, it is false. DESIGN CHOICE, log 19; no operation asks it. -/
def verifyRx (bytes : List Byte) (ptype : Byte) (len : Nat) : Bool :=
  bytes[len]? == some (seed ^^^ ptype ^^^ fold (bytes.take len))

/-- `CSTX buf, base, len` (R77). -/
def execCstx (sel : BufSel) (base len : Byte) (s : State) : Result :=
  if windowOk base len then
    s.memWindow sel base.toNat len.toNat fun w => s.respond { err := .ok, csum := computeTx w }
  else s.raise .invalidArgument

/-- `CSRX buf, base, len, ptype` (R78). A mismatch is the result `ok = 0`, not an error (R80, R143). The check
is the one `FPX` makes of a response, and it passes on a built frame (R117 items 2 and 5). -/
def execCsrx (sel : BufSel) (base len ptype : Byte) (s : State) : Result :=
  if checkedWindowOk base len then
    s.memWindow sel base.toNat (len.toNat + 1) fun w => s.respond { err := .ok, ok := verifyRx w ptype len.toNat }
  else s.raise .invalidArgument

end Sys2Proof.Machine
end

