-- ==== Sys2Proof/Machine/Flags.lean ====
section
/-! DEFINITION. The one flag of the block, `DIAG.UNK`, and the byte written with it (R12, R13). There are no condition
codes. -/

namespace Sys2Proof.Machine

/-- Records a decoded status: an `unknown` one sets `DIAG.UNK` and stores its raw byte in `DIAG_RAW`; any other kind leaves
both unchanged (R13, R93, R115). Nothing here clears the flag (R12). -/
def State.recordDiagnostic (s : State) (st : ModuleStatus) : State :=
  if st.kind = .unknown then { s with diagUnk := true, diagRaw := st.code } else s

end Sys2Proof.Machine
end

