-- ==== Sys2Proof/Machine/StatusDecoder.lean ====
section
/-! DEFINITION. The Status Decoder (`41_status_decoder.md`): the pure functions `decode` and `bytesReady` and the operations
`STDEC` and `STRDY`. The one table is the one of R53 to R55 and the one parameter is `MAX_SPI_LEN`. -/

namespace Sys2Proof.Machine

/-- The fixed status codes (R53). -/
def fixedKind (raw : Byte) : Option Kind :=
  match raw.toNat with
  | 0x00 => some .disabled
  | 0x07 => some .userStopped
  | 0x3F => some .bufferFullCrcOk
  | 0x3E => some .bufferFullCrcError
  | 0x80 => some .communicationMode
  | 0x81 => some .programmingMode
  | 0x82 => some .debugMode
  | 0x83 => some .slowMode
  | 0xFF => some .noModuleDetected
  | _ => none

/-- The raw byte lies in the closed range `[0x40, 0x40 + MAX_SPI_LEN]` (R54). -/
def inDataReadyRange (cfg : Cfg) (raw : Byte) : Bool :=
  decide (drBase ≤ raw.toNat) && decide (raw.toNat ≤ drBase + cfg.maxSpiLen.toNat)

/-- `decode(raw)` (R85): the fixed codes first, then the range, then `unknown` (R56); the raw byte is kept (R58). -/
def decodeStatus (cfg : Cfg) (raw : Byte) : ModuleStatus :=
  match fixedKind raw with
  | some kind => { kind := kind, code := raw }
  | none => { kind := if inDataReadyRange cfg raw then .dataReady else .unknown, code := raw }

/-- `bytesReady(s)` (R87): 0 for a status that is not `data_ready`, `FULL_COUNT` for the boundary code, else
`code - 0x40`. R87 defines it for well-formed statuses only (R59). DESIGN CHOICE, unsafe, log 19: of an ill-formed one it is
what the same three lines give, 0 for `data_ready` with a code below 0x40; no operation asks it (R94). -/
def bytesReady (cfg : Cfg) (st : ModuleStatus) : Nat :=
  if st.kind ≠ .dataReady then 0
  else if st.code.toNat = drBase then cfg.fullCount.toNat
  else st.code.toNat - drBase

/-- The operand of `STRDY` is a value that `decode` can return: the well-formedness of R59. Kinds 11 to 15 are the number of
no kind, so they never are. -/
def statusOk (cfg : Cfg) (kind : BitVec 4) (code : Byte) : Bool := kind == kindNumber (decodeStatus cfg code).kind

/-- What `STDEC` and `FPQ` do with a raw status byte (R93, R115): decode it, record an `unknown`, respond with the status. -/
def State.respondStatus (s : State) (raw : Byte) : Result :=
  (s.recordDiagnostic (decodeStatus s.cfg raw)).respond { err := .ok, status := statusBits (decodeStatus s.cfg raw) }

/-- `STDEC raw` (R93). -/
def execStdec (raw : Byte) (s : State) : Result := s.respondStatus raw

/-- `STRDY kind, code` (R94). It never touches `DIAG.UNK`. -/
def execStrdy (kind : BitVec 4) (code : Byte) (s : State) : Result :=
  if statusOk s.cfg kind code then
    s.respond { err := .ok, count := BitVec.ofNat 8 (bytesReady s.cfg (decodeStatus s.cfg code)) }
  else s.raise .invalidArgument

end Sys2Proof.Machine
end

