-- ==== Sys2Proof/Machine/FrameCodec.lean ====
section
/-! DEFINITION. The Frame Codec (`42_frame_codec.md`): the pure builders and parsers, and the operations `FBQ`, `FBX`, `FPQ`,
`FPX` that run them on `TXBUF` and `RXBUF`. Frames start at address 0 of their buffer (R26, R29). -/

namespace Sys2Proof.Machine

/-! ## The builder functions -/

/-- `buildStatusQuery()`: the five bytes of R47, no checksum (R100). -/
def buildStatusQuery : List Byte := [marker, cmdStatus, 0x00, 0x00, 0x00]

/-- The command, PTYPE and payload of a data-exchange frame, the bytes its checksum covers (R101, R105). -/
def dataExchangeBody (cfg : Cfg) (command : Byte) (payload : List Byte) (length : Nat) (isWrite : Bool) : List Byte :=
  [command, packPtype (clampLength cfg length) isWrite] ++ payload.take (clampLength cfg length)

/-- `buildDataExchange(command, payload, length, isWrite)` (R101): `[0x01] ++ body ++ [computeTx(body)]`, for a payload of at
least `min(length, MAX_PAYLOAD)` bytes. Of a shorter one it uses the bytes there are. DESIGN CHOICE, log 19. The frame
carries its own length and check (R117 item 1). -/
def buildDataExchange (cfg : Cfg) (command : Byte) (payload : List Byte) (length : Nat) (isWrite : Bool) : List Byte :=
  [marker] ++ dataExchangeBody cfg command payload length isWrite
    ++ [computeTx (dataExchangeBody cfg command payload length isWrite)]

/-! ## The parser functions -/

/-- `parseStatusReply(F) = decode(F[1])` (R106). For a frame of fewer than two bytes, outside the function's domain, it decodes
0x00. DESIGN CHOICE, log 19; no operation asks it. -/
def parseStatusReply (cfg : Cfg) (frame : List Byte) : ModuleStatus := decodeStatus cfg (frame.getD 1 0x00)

/-- The result of `parseDataExchange`: the source's `Result<bytes, ChecksumError>` (R107). -/
inductive ParseResult where
  /-- The check succeeded: the payload slice (R109) or the response less its checksum (R110). -/
  | ok (bytes : List Byte)
  /-- The check failed: the first four bytes of the response, for diagnosis (R111). -/
  | checksumMismatch (diagnostic : List Byte)
deriving DecidableEq, Repr

/-- `parseDataExchange(F, ptype, payloadLength)` (R107 to R111), for a frame of at least `max(4, payloadLength + 3)` bytes. The
check covers `payloadLength` bytes from offset 2 (R108). `ptype[6:0]` is not compared with `payloadLength` (R112). What it gives for a
shorter frame is a DESIGN CHOICE, log 19; no operation asks it. -/
def parseDataExchange (frame : List Byte) (ptype : Byte) (payloadLength : Nat) : ParseResult :=
  if verifyRx (frame.drop 2) ptype payloadLength then
    if ptypeIsWrite ptype then .ok (frame.take (2 + payloadLength))
    else .ok ((frame.drop 2).take payloadLength)
  else .checksumMismatch (frame.take 4)

/-! ## The operations -/

/-- `FBQ` (R113). -/
def execFbq (s : State) : Result :=
  s.memWrite .tx 0 marker fun s =>
  s.memWrite .tx 1 cmdStatus fun s =>
  s.memWrite .tx 2 0x00 fun s =>
  s.memWrite .tx 3 0x00 fun s =>
  s.memWrite .tx 4 0x00 fun s =>
  (s.setTxlen 5).respond { err := .ok, txlen := 5 }

/-- `FBX dir, command, length` (R114): writes the header around the payload that is already in `TXBUF` from address 3, then the
checksum of the bytes as they then stand after it. What it leaves in `TXBUF` verifies as a window, and doing it twice is doing it
once (R117 items 2 and 3). -/
def execFbx (isWrite : Bool) (command length : Byte) (s : State) : Result :=
  let lenC := clampLength s.cfg length.toNat
  let ptype := packPtype lenC isWrite
  let clamped := wasClamped s.cfg length.toNat
  s.memWrite .tx 0 marker fun s =>
  s.memWrite .tx 1 command fun s =>
  s.memWrite .tx 2 ptype fun s =>
  s.memWindow .tx 1 (2 + lenC) fun body =>
  s.memWrite .tx (3 + lenC) (computeTx body) fun s =>
  (s.setTxlen (lenC + 4)).respond
    { err := .ok, txlen := BitVec.ofNat 7 (lenC + 4), ptype := ptype, clamped := clamped }

/-- `FPQ` (R115): decodes the byte at address 1 of `RXBUF`, whatever it is; no checksum is checked. -/
def execFpq (s : State) : Result := s.memRead .rx 1 fun raw => s.respondStatus raw

/-- The slice `FPX` names, by the outcome of the check and bit 7 of `ptype` (R116): offset and number of bytes in `RXBUF`. -/
def parseSlice (good : Bool) (payloadLength : Nat) (ptype : Byte) : Response :=
  if good then
    if ptypeIsWrite ptype then { err := .ok, off := 0, n := BitVec.ofNat 7 (payloadLength + 2) }
    else { err := .ok, off := 2, n := BitVec.ofNat 7 payloadLength }
  else { err := .checksumMismatch, off := 0, n := 4 }

/-- `FPX payloadLength, ptype` (R116). The check made is never ignored (R80); it is the one `CSRX` makes, and one check byte passes
it (R117 items 4 and 5). -/
def execFpx (payloadLength ptype : Byte) (s : State) : Result :=
  if payloadLengthOk payloadLength then
    s.memWindow .rx 2 (payloadLength.toNat + 1) fun w =>
      s.respond (parseSlice (verifyRx w ptype payloadLength.toNat) payloadLength.toNat ptype)
  else s.raise .invalidArgument

end Sys2Proof.Machine
end

