-- ==== Sys2Proof/Machine/HostAccess.lean ====
section
/-! DEFINITION. The host access operations (`43_host_access.md`): `HWR`, `HRD`, `CRRD`. -/

namespace Sys2Proof.Machine

/-- What an `HWR` to a buffer does to `TXLEN`: cleared when the buffer is `TXBUF`, untouched when it is `RXBUF` (R130). -/
def State.touchTxlen (s : State) : BufSel → State
  | .tx => s.setTxlen 0
  | .rx => s

/-- `HWR buf, addr, data` (R130). -/
def execHwr (sel : BufSel) (addr data : Byte) (s : State) : Result :=
  if addressOk addr then
    s.memWrite sel addr.toNat data fun s => (s.touchTxlen sel).respond { err := .ok }
  else s.raise .invalidArgument

/-- `HRD buf, addr` (R131). It does not look at `TXLEN`. -/
def execHrd (sel : BufSel) (addr : Byte) (s : State) : Result :=
  if addressOk addr then s.memRead sel addr.toNat fun v => s.respond { err := .ok, data := v }
  else s.raise .invalidArgument

/-- `CRRD n` (R132). Reading `DIAG` clears nothing. -/
def execCrrd (n : Byte) (s : State) : Result :=
  match s.controlRegister n with
  | some v => s.respond { err := .ok, data := v }
  | none => s.raise .invalidArgument

end Sys2Proof.Machine
end

