-- ==== Sys2Proof/Machine/Reserved.lean ====
section
/-! DEFINITION. The reserved request words (R43): not operations, not hints and not no-ops. The block performs nothing, writes
no state and responds `IllegalRequest` with every result field zero (R42). -/

namespace Sys2Proof.Machine

/-- A word with op 0x0 (R43). -/
def execReserved0 (_rest : BitVec 28) (s : State) : Result := s.raise .illegalRequest

/-- A word with op 0xC to 0xF (R43). -/
def execReservedCF (_op : BitVec 4) (_rest : BitVec 28) (s : State) : Result := s.raise .illegalRequest

end Sys2Proof.Machine
end

