-- ==== Sys2Proof/Machine/Dispatch.lean ====
section
/-! DEFINITION. The meaning of every row of the opcode table, one arm each. -/

namespace Sys2Proof.Machine

def exec (i : Instr) (s : State) : Host.Outcome State Fault Refusal :=
  match i with
  | .hwr sel addr data => Sys2Proof.Machine.execHwr sel addr data s
  | .hrd sel addr => Sys2Proof.Machine.execHrd sel addr s
  | .crrd n => Sys2Proof.Machine.execCrrd n s
  | .cstx sel base len => Sys2Proof.Machine.execCstx sel base len s
  | .csrx sel base len ptype => Sys2Proof.Machine.execCsrx sel base len ptype s
  | .stdec raw => Sys2Proof.Machine.execStdec raw s
  | .strdy kind code => Sys2Proof.Machine.execStrdy kind code s
  | .fbq => Sys2Proof.Machine.execFbq s
  | .fbx isWrite command length => Sys2Proof.Machine.execFbx isWrite command length s
  | .fpq => Sys2Proof.Machine.execFpq s
  | .fpx payloadLength ptype => Sys2Proof.Machine.execFpx payloadLength ptype s
  | .reserved0 rest => Sys2Proof.Machine.execReserved0 rest s
  | .reservedCF op rest => Sys2Proof.Machine.execReservedCF op rest s

end Sys2Proof.Machine
end

