-- ==== Sys2Proof/Machine/Issue.lean ====
section
/-! DEFINITION. Performing one request word (R31, R40 to R43): the word is checked before anything else (R145), then the
operation it stands for is performed. -/

namespace Sys2Proof.Machine

/-- Performs the request word `w`: the operation it decodes to, or `IllegalRequest` with no state written (R42). A configuration
outside its legal ranges is refused: the spec states the step only over well-formed ones (R8, U14). Log 7. -/
def State.perform (s : State) (w : Word) : Result :=
  if s.cfg.wf then
    match decode w with
    | .ok i => exec i s
    | .error _ => s.raise .illegalRequest
  else .refused .illFormedConfiguration

/-- Takes one move of the host (R177). -/
def State.takeMove (s : State) : HostMove → Result
  | .request w => s.perform w
  | .reset cfg txDraw rxDraw => s.applyReset cfg txDraw rxDraw

/-- The state with a request word at the head of the host's moves. -/
def State.issue (s : State) (w : Word) : State := { s with inputs := .request w :: s.inputs }

end Sys2Proof.Machine
end

