-- ==== Sys2Proof/Machine/Step.lean ====
section
/-! DEFINITION. One step of the machine: it takes the host's next move. -/

namespace Sys2Proof.Machine

/-- One step: the host's next move is taken and performed whole (R31); with none pending the block is idle and keeps all its
state (R148, log 3). -/
def step (s : State) : Host.Outcome State Fault Refusal :=
  match s.inputs with
  | [] => .next s
  | move :: later => State.takeMove { s with inputs := later } move

/-- The state in which the very next step performs the request word of a table row: the host issues it next. It stands for
the host, which is outside the block and the only source of requests (R11, R33). Log 2. -/
def State.withFetchWord (s : State) (nbits w : Nat) : State := s.issue (wordOfTable nbits w)

end Sys2Proof.Machine
end

