-- ==== Sys2Proof/Machine/Assembly.lean ====
section
/-! DEFINITION. The assembler form of a request (R63) and the pseudo-operations (R64). Nothing here is performed by the block:
it is how a request is written, and what sequence of requests the host issues for a pseudo-operation. -/

namespace Sys2Proof.Machine

/-! ## Assembler form (R63) -/

/-- A number operand. R63 allows decimal or hexadecimal; decimal is written here. DESIGN CHOICE, safe, log 20. -/
def numberText (n : Nat) : String := toString n

/-- A buffer operand: `T` or `R`. -/
def bufferText : BufSel → String
  | .tx => "T"
  | .rx => "R"

/-- A direction operand: `RD` or `WR`. -/
def directionText (isWrite : Bool) : String := if isWrite then "WR" else "RD"

/-- A kind operand: the name of R58, or the number when it is no kind's. -/
def kindText (kind : BitVec 4) : String :=
  match kind.toNat with
  | 0 => "disabled"
  | 1 => "user_stopped"
  | 2 => "buffer_full_crc_ok"
  | 3 => "buffer_full_crc_error"
  | 4 => "communication_mode"
  | 5 => "programming_mode"
  | 6 => "debug_mode"
  | 7 => "slow_mode"
  | 8 => "no_module_detected"
  | 9 => "data_ready"
  | 10 => "unknown"
  | n => numberText n

/-- The operands of a request in the order `f, a, b, c`, must-be-zero fields left out; none for a reserved word, which has
no assembler form (R63). -/
def operandTexts : Instr → Option (List String)
  | .hwr sel addr data => some [bufferText sel, numberText addr.toNat, numberText data.toNat]
  | .hrd sel addr => some [bufferText sel, numberText addr.toNat]
  | .crrd n => some [numberText n.toNat]
  | .cstx sel base len => some [bufferText sel, numberText base.toNat, numberText len.toNat]
  | .csrx sel base len ptype =>
    some [bufferText sel, numberText base.toNat, numberText len.toNat, numberText ptype.toNat]
  | .stdec raw => some [numberText raw.toNat]
  | .strdy kind code => some [kindText kind, numberText code.toNat]
  | .fbq => some []
  | .fbx isWrite command length =>
    some [directionText isWrite, numberText command.toNat, numberText length.toNat]
  | .fpq => some []
  | .fpx payloadLength ptype => some [numberText payloadLength.toNat, numberText ptype.toNat]
  | .reserved0 _ => none
  | .reservedCF _ _ => none

/-- Operands written with commas between them. -/
def commaText : List String → String
  | [] => ""
  | [x] => " " ++ x
  | x :: y :: rest => " " ++ x ++ "," ++ commaText (y :: rest)

/-- A request as the spec writes it: the mnemonic and its operands (R63). -/
def assemblyText (i : Instr) : Option String :=
  (operandTexts i).map fun operands => mnemonic i ++ commaText operands

/-! ## Pseudo-operations (R64) -/

/-- The requests of `FILL` from address `addr` on. -/
def fillFrom (sel : BufSel) (addr : Nat) : List Byte → List Instr
  | [] => []
  | b :: rest => .hwr sel (BitVec.ofNat 8 addr) b :: fillFrom sel (addr + 1) rest

/-- `FILL buf, addr, b0, ..., bk` (R64); none when an address does not fit its 8-bit field. -/
def fillOps (sel : BufSel) (addr : Nat) (bytes : List Byte) : Option (List Instr) :=
  if addr + bytes.length ≤ 256 then some (fillFrom sel addr bytes) else none

/-- The requests of `DUMP` from address `addr` on. -/
def dumpFrom (sel : BufSel) (addr : Nat) : Nat → List Instr
  | 0 => []
  | k + 1 => .hrd sel (BitVec.ofNat 8 addr) :: dumpFrom sel (addr + 1) k

/-- `DUMP buf, addr, k` (R64); none when an address does not fit its 8-bit field. -/
def dumpOps (sel : BufSel) (addr k : Nat) : Option (List Instr) :=
  if addr + k ≤ 256 then some (dumpFrom sel addr k) else none

/-- The first request of `DRDY` (R64). -/
def drdyFirst : Instr := .fpq

/-- The second request of `DRDY`: `STRDY kind, code` with the `status` that `FPQ` returned (R64). -/
def drdySecond (fromFpq : Response) : Instr :=
  .strdy (fromFpq.status.extractLsb' 8 4) (fromFpq.status.extractLsb' 0 8)

/-- The words a host issues for a list of requests, in order. -/
def requestMoves (ops : List Instr) : List HostMove := ops.map fun i => .request (encode i)

end Sys2Proof.Machine
end

