-- ==== Sys2Proof/Safety.lean ====
section
/-! DEFINITION. What a good state and a good run are: the invariant of R17 with the canonical form of the buffers and the
legal configuration (R8), the operand faults of R44, and the host's duty about sending a frame (R171). -/

namespace Sys2Proof.Safety

open Sys2Proof.Machine

/-- The bytes are a frame that a builder returns: the status query (R100), or a data-exchange frame of some payload of at most
`MAX_PAYLOAD` bytes (R101). -/
def BuiltFrame (cfg : Cfg) (frame : List Byte) : Prop :=
  frame = buildStatusQuery ∨
    ∃ (command : Byte) (payload : List Byte) (isWrite : Bool),
      payload.length ≤ cfg.maxPayload.toNat ∧
        frame = buildDataExchange cfg command payload payload.length isWrite

/-- The frame in `TXBUF`: the bytes `TXBUF[0 .. TXLEN)` (R17). -/
def txFrame (s : State) : List Byte := s.bytes .tx 0 s.txlen.toNat

/-- `TXLEN = 0`, or `TXBUF[0 .. TXLEN)` is exactly a built frame (R17). -/
def FrameValid (s : State) : Prop := s.txlen = 0 ∨ BuiltFrame s.cfg (txFrame s)

/-- The invariant: a legal configuration (R8), both buffers in canonical form, and a valid frame (R17). -/
structure Inv (s : State) : Prop where
  cfg_wf : s.cfg.wf = true
  txbuf_wf : Memory.wf s.txbuf = true
  rxbuf_wf : Memory.wf s.rxbuf = true
  frame_valid : FrameValid s

/-- What the host may give to the Transport: `TXBUF[0 .. TXLEN)`, and nothing while `TXLEN = 0` (R162, R171). -/
def frameToSend (s : State) : Option (List Byte) := if s.txlen = 0 then none else some (txFrame s)

/-- The operand faults of R44, the complete list: these and no others are answered `InvalidArgument`. -/
def operandOutOfRange (cfg : Cfg) : Instr → Prop
  | .hwr _ addr _ => 63 < addr.toNat
  | .hrd _ addr => 63 < addr.toNat
  | .crrd n => 5 < n.toNat
  | .cstx _ base len => 64 < base.toNat + len.toNat
  | .csrx _ base len _ => 63 < base.toNat + len.toNat
  | .strdy kind code => statusBits (decodeStatus cfg code) ≠ kind ++ code
  | .fpx payloadLength _ => 61 < payloadLength.toNat
  | .stdec _ => False
  | .fbq => False
  | .fbx _ _ _ => False
  | .fpq => False
  | .reserved0 _ => False
  | .reservedCF _ _ => False

/-- The raw status byte that an operation decodes and may record: the operand of `STDEC`, the byte at address 1 of `RXBUF` for
`FPQ` (R13, R93, R115); none for every other operation (`STRDY` records nothing, R94). -/
def recordedRaw (s : State) : Instr → Option Byte
  | .stdec raw => some raw
  | .fpq => some (s.byte .rx 1)
  | .hwr _ _ _ => none
  | .hrd _ _ => none
  | .crrd _ => none
  | .cstx _ _ _ => none
  | .csrx _ _ _ _ => none
  | .strdy _ _ => none
  | .fbq => none
  | .fbx _ _ _ => none
  | .fpx _ _ => none
  | .reserved0 _ => none
  | .reservedCF _ _ => none

/-- Nothing but the two buffers and `TXLEN` may differ between the states, and the response `r` has been given. -/
structure OnlyBuffersAndLength (s t : State) (r : Response) : Prop where
  cfg : t.cfg = s.cfg
  diagUnk : t.diagUnk = s.diagUnk
  diagRaw : t.diagRaw = s.diagRaw
  inputs : t.inputs = s.inputs
  responses : t.responses = r :: s.responses

/-- The state with one more response given and nothing else changed. -/
def afterAnswer (s : State) (r : Response) : State := { s with responses := r :: s.responses }

end Sys2Proof.Safety
end

