-- ==== Sys2Proof/Certificates/Slice0/Obligations.lean ====
section
/-! DEFINITION. The statements for the provers. Where one rests on a choice of the model's and not on a rule of the spec, its
docstring says so and names the log entry. -/

open Sys2Proof Sys2Proof.Machine Sys2Proof.Safety

/-! ## Encoding -/

/-- R40, R41: the word of every well-formed instruction decodes to it, with every operand at every value. -/
def Obligations.DecodeOfEncodeIsTheInstruction : Prop :=
  ∀ i : Instr, i.wf = true → decode (encode i) = .ok i

/-- R40, R41: a word that decodes to an instruction is the word of that instruction, and the instruction is well formed. -/
def Obligations.EncodeOfDecodeIsTheWord : Prop :=
  ∀ (w : Word) (i : Instr), decode w = .ok i → encode i = w ∧ i.wf = true

/-- R41: a word decodes to an instruction of a row exactly when its masked bits are the row's match. -/
def Obligations.DecodeFollowsMatchAndMask : Prop :=
  ∀ (w : Word) (r : OpRow), r ∈ operationRows ++ reservedRows →
    ((∃ i, decode w = .ok i ∧ mnemonic i = r.name) ↔ r.holds w = true)

/-- R41: the match and mask pairs are disjoint: no word belongs to two rows. -/
def Obligations.TableRowsAreDisjoint : Prop :=
  ∀ (w : Word) (r r' : OpRow), r ∈ operationRows ++ reservedRows → r' ∈ operationRows ++ reservedRows →
    r.holds w = true → r'.holds w = true → r = r'

/-- R63's example words, and a word of each family, decode to the requests they are written for (R41, R63), and a word with a
must-be-zero bit set decodes to none (R42). That its rejection carries the name `unusedFieldSet 7` is the model's choice
(log 10): R42 says only that the word is an illegal request. -/
def Obligations.WrittenWordsDecodeAsTheSpecSays : Prop :=
  decode 0x1003AA00 = .ok (.hwr .tx 3 0xAA) ∧ decode 0x40010400 = .ok (.cstx .tx 1 4) ∧
    decode 0x70000943 = .ok (.strdy 9 0x43) ∧ decode 0x91F00200 = .ok (.fbx true 0xF0 2) ∧
    decode 0xB0000282 = .ok (.fpx 2 0x82) ∧ decode 0x70001943 = .error (.unusedFieldSet 7) ∧
    decode 0xC0003E00 = .ok (.reservedCF 0xC 0x3E00)

/-! ## The step -/

/-- R31, R40 to R42: when the host's next move is a request word that decodes to `i`, the step performs `i` on the state with that
move taken. The configuration is legal (R8). The list of moves is the model's own (log 1). -/
def Obligations.StepPerformsTheDecodedRequest : Prop :=
  ∀ (s : State) (w : Word) (later : List HostMove) (i : Instr),
    s.inputs = .request w :: later → s.cfg.wf = true → decode w = .ok i →
      step s = exec i { s with inputs := later }

/-- R42: a request is answered `IllegalRequest` exactly when it matches no row of the eleven operations, and then nothing is
performed, no state is written and every result field is zero. -/
def Obligations.IllegalRequestExactlyOutsideTheElevenRows : Prop :=
  ∀ (s : State) (w : Word) (later : List HostMove), s.inputs = .request w :: later → s.cfg.wf = true →
    ∃ t r, step s = .next t ∧ t.responses = r :: s.responses ∧
      (r.err = .illegalRequest ↔ ∀ row ∈ operationRows, row.holds w = false) ∧
      (r.err = .illegalRequest →
        r = { err := .illegalRequest } ∧ t = { s with inputs := later, responses := r :: s.responses })

/-- R140, R176: every request is answered, by exactly one response, whose code is 0 to 3; no other move of the host is taken. -/
def Obligations.EveryRequestGetsOneResponse : Prop :=
  ∀ (s : State) (w : Word) (later : List HostMove), s.inputs = .request w :: later → s.cfg.wf = true →
    ∃ t r, step s = .next t ∧ t.inputs = later ∧ t.responses = r :: s.responses ∧ (errCode r.err).toNat ≤ 3

/-- R9 item 5, R141, R176: no step stops with a fault, and a step is refused only for an illegal configuration (R8; where it is refused, log 7). -/
def Obligations.NoStepStopsTheBlock : Prop :=
  ∀ s : State, (∀ f, step s ≠ .fault f) ∧
    (∀ q, step s = .refused q → q = .illFormedConfiguration ∧
      (s.cfg.wf = false ∨ ∃ c tx rx later, s.inputs = .reset c tx rx :: later ∧ c.wf = false))

/-- R148: between requests the block keeps all its state. That an idle step is a step at all is the model's (log 3). -/
def Obligations.IdleBlockKeepsItsState : Prop :=
  ∀ s : State, s.inputs = [] → step s = .next s

/-! ## Errors -/

/-- R144: an error response changes nothing; a state write is made only with an `OK` response. -/
def Obligations.ErrorResponsesChangeNothing : Prop :=
  ∀ (i : Instr) (s t : State) (r : Response), exec i s = .next t → t.responses = r :: s.responses →
    r.err ≠ .ok → t = afterAnswer s r

/-- R44: `InvalidArgument` is answered exactly on the operands of the list, with every result field zero and no state written.
The configuration is legal (R8). -/
def Obligations.InvalidArgumentExactlyOnTheListedOperands : Prop :=
  ∀ (i : Instr) (s : State), s.cfg.wf = true →
    ∃ t r, exec i s = .next t ∧ t.responses = r :: s.responses ∧
      (r.err = .invalidArgument ↔ operandOutOfRange s.cfg i) ∧
      (r.err = .invalidArgument → r = { err := .invalidArgument } ∧ t = afterAnswer s r)

/-- R43: a word with a reserved op code, whatever its other bits, is the reserved row's, and is answered `IllegalRequest` with every
result field zero and no state written. -/
def Obligations.ReservedWordsAnswerIllegalRequest : Prop :=
  ∀ (op : BitVec 4) (rest : BitVec 28) (s : State),
    (decode (0#4 ++ rest) = .ok (.reserved0 rest) ∧
      exec (.reserved0 rest) s = .next (afterAnswer s { err := .illegalRequest })) ∧
    (0xC ≤ op.toNat → decode (op ++ rest) = .ok (.reservedCF op rest) ∧
      exec (.reservedCF op rest) s = .next (afterAnswer s { err := .illegalRequest }))

/-- R142: `ChecksumMismatch` is answered by `FPX` only, and carries the slice of the first four bytes. -/
def Obligations.ChecksumMismatchOnlyFromFpx : Prop :=
  ∀ (i : Instr) (s t : State) (r : Response), exec i s = .next t → t.responses = r :: s.responses →
    r.err = .checksumMismatch → (∃ payloadLength ptype, i = .fpx payloadLength ptype) ∧ r.off = 0 ∧ r.n = 4

/-! ## Host access -/

/-- R130: `HWR` writes one byte of one buffer, clears `TXLEN` when the buffer is `TXBUF`, and changes nothing else. -/
def Obligations.HwrWritesOneByteAndClearsTxlen : Prop :=
  ∀ (sel : BufSel) (addr data : Byte) (s : State), addr.toNat ≤ 63 →
    ∃ t r, exec (.hwr sel addr data) s = .next t ∧ r.err = .ok ∧ OnlyBuffersAndLength s t r ∧
      t.byte sel addr.toNat = data ∧
      (∀ sel' a, ¬ (sel' = sel ∧ a = addr.toNat) → t.byte sel' a = s.byte sel' a) ∧
      t.txlen = if sel = .tx then 0 else s.txlen

/-- R131: `HRD` returns the byte and changes nothing. -/
def Obligations.HrdReturnsTheByte : Prop :=
  ∀ (sel : BufSel) (addr : Byte) (s : State), addr.toNat ≤ 63 →
    ∃ r, exec (.hrd sel addr) s = .next (afterAnswer s r) ∧ r.err = .ok ∧ r.data = s.byte sel addr.toNat

/-- R132, R14: `CRRD` returns control register 0 to 5 and changes nothing. -/
def Obligations.CrrdReturnsTheControlRegister : Prop :=
  ∀ (n : Byte) (s : State), n.toNat ≤ 5 →
    ∃ r, exec (.crrd n) s = .next (afterAnswer s r) ∧ r.err = .ok ∧
      r.data.toNat =
        if n = 0 then s.cfg.maxPayload.toNat else if n = 1 then s.cfg.maxSpiLen.toNat
        else if n = 2 then s.cfg.fullCount.toNat else if n = 3 then s.txlen.toNat
        else if n = 4 then s.diagUnk.toNat else s.diagRaw.toNat

/-- R31, R32, R36: a byte written is what the very next request reads there. -/
def Obligations.WriteIsVisibleToTheNextRequest : Prop :=
  ∀ (sel : BufSel) (addr data : Byte) (s : State), addr.toNat ≤ 63 →
    ∃ t r, exec (.hwr sel addr data) s = .next t ∧ exec (.hrd sel addr) t = .next (afterAnswer t r) ∧
      r.err = .ok ∧ r.data = data

/-! ## Checksum Engine -/

/-- R70: `fold` of nothing is 0x00 and each byte is folded in by exclusive or; the order of the bytes does not matter, and a
byte that occurs an even number of times contributes nothing. -/
def Obligations.FoldIgnoresOrderAndPairs : Prop :=
  fold [] = 0x00 ∧ (∀ (bytes : List Byte) (b : Byte), fold (bytes ++ [b]) = fold bytes ^^^ b) ∧
    (∀ bytes bytes' : List Byte, bytes.Perm bytes' → fold bytes = fold bytes') ∧
    (∀ (bytes : List Byte) (b : Byte), bytes.count b % 2 = 0 → fold (bytes.filter fun x => x ≠ b) = fold bytes)

/-- R73: the receive check with `ptype` in the seed is the transmit checksum with `ptype` as the first byte. -/
def Obligations.TransmitAndReceiveSeedsAgree : Prop :=
  ∀ (bytes : List Byte) (ptype : Byte) (len : Nat), len < bytes.length →
    (verifyRx bytes ptype len = true ↔ bytes[len]? = some (computeTx ([ptype] ++ bytes.take len)))

/-- R74: the three self-checking identities. -/
def Obligations.ChecksumIsSelfChecking : Prop :=
  ∀ bytes : List Byte,
    fold (bytes ++ [computeTx bytes]) = 0x5F ∧ computeTx (bytes ++ [computeTx bytes]) = 0x00 ∧
      verifyRx (bytes ++ [computeTx bytes]) 0x00 bytes.length = true

/-- R75: the laws of the checksum: the tail folds in, order does not matter, one changed byte is always detected, two bytes
changed by the same difference never are, and exactly one check byte verifies. -/
def Obligations.ChecksumErrorDetection : Prop :=
  (∀ a b : List Byte, computeTx (a ++ b) = computeTx a ^^^ fold b) ∧
  (∀ a b : List Byte, a.Perm b → computeTx a = computeTx b) ∧
  (∀ (a b : List Byte) (x y : Byte), x ≠ y →
    computeTx (a ++ [y] ++ b) = computeTx (a ++ [x] ++ b) ^^^ (x ^^^ y) ∧
      computeTx (a ++ [y] ++ b) ≠ computeTx (a ++ [x] ++ b)) ∧
  (∀ (a b c : List Byte) (x y d : Byte),
    computeTx (a ++ [x ^^^ d] ++ b ++ [y ^^^ d] ++ c) = computeTx (a ++ [x] ++ b ++ [y] ++ c)) ∧
  (∀ (bytes : List Byte) (ptype : Byte), ∃! x : Byte, verifyRx (bytes ++ [x]) ptype bytes.length = true)

/-- R77: `CSTX` returns the checksum of the window, 0x5F folded with its bytes, and changes nothing. -/
def Obligations.CstxReturnsTheWindowChecksum : Prop :=
  ∀ (sel : BufSel) (base len : Byte) (s : State), base.toNat + len.toNat ≤ 64 →
    ∃ r, exec (.cstx sel base len) s = .next (afterAnswer s r) ∧ r.err = .ok ∧
      r.csum = 0x5F ^^^ fold (s.bytes sel base.toNat len.toNat)

/-- R78, R143: `CSRX` returns whether the byte after the window is the receive checksum of the window, `OK` either way, and changes
nothing. -/
def Obligations.CsrxReturnsTheWindowCheck : Prop :=
  ∀ (sel : BufSel) (base len ptype : Byte) (s : State), base.toNat + len.toNat ≤ 63 →
    ∃ r, exec (.csrx sel base len ptype) s = .next (afterAnswer s r) ∧ r.err = .ok ∧
      (r.ok = true ↔ s.byte sel (base.toNat + len.toNat) =
        0x5F ^^^ ptype ^^^ fold (s.bytes sel base.toNat len.toNat))

/-! ## Status Decoder -/

/-- R85: the raw byte is kept, and the kind is the one of the table: the nine fixed codes first, then the range, then
`unknown`. -/
def Obligations.DecodeStatusIsTheTable : Prop :=
  ∀ (cfg : Cfg) (raw : Byte), (decodeStatus cfg raw).code = raw ∧
    (decodeStatus cfg raw).kind =
      (if raw = 0x00 then .disabled else if raw = 0x07 then .userStopped
      else if raw = 0x3F then .bufferFullCrcOk else if raw = 0x3E then .bufferFullCrcError
      else if raw = 0x80 then .communicationMode else if raw = 0x81 then .programmingMode
      else if raw = 0x82 then .debugMode else if raw = 0x83 then .slowMode
      else if raw = 0xFF then .noModuleDetected
      else if 0x40 ≤ raw.toNat ∧ raw.toNat ≤ 0x40 + cfg.maxSpiLen.toNat then .dataReady
      else .unknown)

/-- R89: the count of a decoded status byte. -/
def Obligations.BytesReadyOfDecodedStatus : Prop :=
  ∀ (cfg : Cfg) (raw : Byte),
    bytesReady cfg (decodeStatus cfg raw) =
      if raw = 0x40 then cfg.fullCount.toNat
      else if 0x41 ≤ raw.toNat ∧ raw.toNat ≤ 0x40 + cfg.maxSpiLen.toNat ∧
          raw ∉ ([0x80, 0x81, 0x82, 0x83, 0xFF] : List Byte) then raw.toNat - 0x40
      else 0

/-- R86: how many of the 256 bytes are fixed, data-ready and unknown for the two values of `MAX_SPI_LEN` the source names. -/
def Obligations.StatusPartitionCounts : Prop :=
  ∀ cfg : Cfg,
    (((List.range 256).filter fun n => (decodeStatus cfg (BitVec.ofNat 8 n)).kind ≠ .dataReady ∧
        (decodeStatus cfg (BitVec.ofNat 8 n)).kind ≠ .unknown).length = 9) ∧
    (cfg.maxSpiLen = 41 →
      ((List.range 256).filter fun n => (decodeStatus cfg (BitVec.ofNat 8 n)).kind = .dataReady).length = 42 ∧
      ((List.range 256).filter fun n => (decodeStatus cfg (BitVec.ofNat 8 n)).kind = .unknown).length = 205) ∧
    (cfg.maxSpiLen = 64 →
      ((List.range 256).filter fun n => (decodeStatus cfg (BitVec.ofNat 8 n)).kind = .dataReady).length = 64 ∧
      ((List.range 256).filter fun n => (decodeStatus cfg (BitVec.ofNat 8 n)).kind = .unknown).length = 183)

/-- R93: `STDEC` returns the decoded status; an `unknown` one sets `DIAG.UNK` and is stored in `DIAG_RAW`; nothing else changes. -/
def Obligations.StdecReturnsTheStatusAndRecordsUnknown : Prop :=
  ∀ (raw : Byte) (s : State), ∃ r, r.err = .ok ∧ r.status = kindNumber (decodeStatus s.cfg raw).kind ++ raw ∧
    exec (.stdec raw) s = .next
      (if (decodeStatus s.cfg raw).kind = .unknown then
        { s with diagUnk := true, diagRaw := raw, responses := r :: s.responses }
      else { s with responses := r :: s.responses })

/-- R94, R87: for a status that `decode` can return, `STRDY` returns its count, which fits the 8 bits of the field, and changes
nothing. -/
def Obligations.StrdyReturnsTheBytesReady : Prop :=
  ∀ (kind : BitVec 4) (code : Byte) (s : State), statusBits (decodeStatus s.cfg code) = kind ++ code →
    ∃ r, exec (.strdy kind code) s = .next (afterAnswer s r) ∧ r.err = .ok ∧
      r.count.toNat =
        if kind ≠ 9 then 0 else if code = 0x40 then s.cfg.fullCount.toNat else code.toNat - 0x40

/-- R59: for each code exactly one of the 16 values of the kind field is a well-formed status: `STRDY` answers `OK` to one. -/
def Obligations.OneKindIsWellFormedForEachCode : Prop :=
  ∀ (code : Byte) (s : State), ∃! kind : BitVec 4,
    ∃ r, exec (.strdy kind code) s = .next (afterAnswer s r) ∧ r.err = .ok

/-! ## PTYPE -/

/-- R52: splitting and packing PTYPE are inverse to each other. -/
def Obligations.PtypePackAndSplit : Prop :=
  (∀ p : Byte, ptypeIsWrite p = p.getLsbD 7 ∧ ptypeLen p = p.toNat % 128 ∧ packPtype (ptypeLen p) (ptypeIsWrite p) = p) ∧
    (∀ (l : Nat) (w : Bool), l ≤ 127 → ptypeIsWrite (packPtype l w) = w ∧ ptypeLen (packPtype l w) = l)

/-! ## Frame Codec -/

/-- R113: `FBQ` leaves the status query in `TXBUF[0..5)` and 5 in `TXLEN`, and changes nothing else. -/
def Obligations.FbqBuildsTheStatusQuery : Prop :=
  ∀ s : State, ∃ t r, exec .fbq s = .next t ∧ r.err = .ok ∧ r.txlen = 5 ∧ OnlyBuffersAndLength s t r ∧
    t.bytes .tx 0 5 = [0x01, 0x00, 0x00, 0x00, 0x00] ∧ t.txlen = 5 ∧
    (∀ a, 5 ≤ a → t.byte .tx a = s.byte .tx a) ∧ (∀ a, t.byte .rx a = s.byte .rx a)

/-- R114: `FBX` leaves in `TXBUF` exactly the frame that `buildDataExchange` returns for the payload that stood there, writes only
addresses 0, 1, 2 and `3 + len_c`, sets `TXLEN` to the frame's length, and reports length, PTYPE and clamping. The
configuration is legal (R8). -/
def Obligations.FbxBuildsTheDataExchangeFrame : Prop :=
  ∀ (isWrite : Bool) (command length : Byte) (s : State), s.cfg.wf = true →
    ∃ t r, exec (.fbx isWrite command length) s = .next t ∧ r.err = .ok ∧ OnlyBuffersAndLength s t r ∧
      t.bytes .tx 0 (clampLength s.cfg length.toNat + 4) =
        buildDataExchange s.cfg command (s.bytes .tx 3 (clampLength s.cfg length.toNat)) length.toNat isWrite ∧
      (∀ a, a ∉ [0, 1, 2, 3 + clampLength s.cfg length.toNat] → t.byte .tx a = s.byte .tx a) ∧
      (∀ a, t.byte .rx a = s.byte .rx a) ∧
      t.txlen.toNat = min length.toNat s.cfg.maxPayload.toNat + 4 ∧ r.txlen = t.txlen ∧
      r.ptype.toNat = (if isWrite then 128 else 0) + min length.toNat s.cfg.maxPayload.toNat ∧
      (r.clamped = true ↔ s.cfg.maxPayload.toNat < length.toNat)

/-- R117 item 1, R104: a built data-exchange frame starts with the marker, has the number of bytes its PTYPE says and at most 64, and
its bytes after the marker fold to 0x5F. -/
def Obligations.BuiltFrameCarriesItsOwnCheck : Prop :=
  ∀ (cfg : Cfg) (command : Byte) (payload : List Byte) (length : Nat) (isWrite : Bool), cfg.wf = true →
    min length cfg.maxPayload.toNat ≤ payload.length →
    (buildDataExchange cfg command payload length isWrite)[0]? = some 0x01 ∧
    (∃ ptype, (buildDataExchange cfg command payload length isWrite)[2]? = some ptype ∧
      ptypeIsWrite ptype = isWrite ∧
      (buildDataExchange cfg command payload length isWrite).length = ptypeLen ptype + 4) ∧
    (buildDataExchange cfg command payload length isWrite).length ≤ 64 ∧
    fold ((buildDataExchange cfg command payload length isWrite).drop 1) = 0x5F

/-- R117 item 2: after `FBX` the frame read as a window verifies. -/
def Obligations.BuiltFrameVerifiesAsAWindow : Prop :=
  ∀ (isWrite : Bool) (command length : Byte) (s : State), s.cfg.wf = true →
    ∃ t r, exec (.fbx isWrite command length) s = .next t ∧
      exec (.csrx .tx 1 (BitVec.ofNat 8 (t.txlen.toNat - 2)) 0x00) t = .next (afterAnswer t r) ∧
      r.err = .ok ∧ r.ok = true

/-- R117 item 3: building the same frame again changes no byte and not `TXLEN`. -/
def Obligations.FbxIsIdempotent : Prop :=
  ∀ (isWrite : Bool) (command length : Byte) (s : State), s.cfg.wf = true →
    ∃ t u, exec (.fbx isWrite command length) s = .next t ∧ exec (.fbx isWrite command length) t = .next u ∧
      u.txlen = t.txlen ∧ ∀ sel a, u.byte sel a = t.byte sel a

/-- R102, R114: a length above `MAX_PAYLOAD` builds the same frame as `MAX_PAYLOAD` itself, and only `clamped` tells them
apart. -/
def Obligations.OverlongBuildIsTheMaximumBuild : Prop :=
  ∀ (isWrite : Bool) (command length : Byte) (s : State), s.cfg.wf = true →
    s.cfg.maxPayload.toNat < length.toNat →
    ∃ t u r q, exec (.fbx isWrite command length) s = .next t ∧
      exec (.fbx isWrite command s.cfg.maxPayload) s = .next u ∧
      t.responses = r :: s.responses ∧ u.responses = q :: s.responses ∧ r.clamped = true ∧ q.clamped = false ∧
      r.err = .ok ∧ q.err = .ok ∧ r.txlen = q.txlen ∧ r.ptype = q.ptype ∧
      t.txlen = u.txlen ∧ ∀ sel a, t.byte sel a = u.byte sel a

/-- R115, R106: `FPQ` returns the status of the reply in `RXBUF`, the decoding of its byte 1, and has the effect of `STDEC` with that
byte. -/
def Obligations.FpqReturnsTheStatusReply : Prop :=
  ∀ s : State, exec .fpq s = exec (.stdec (s.byte .rx 1)) s ∧
    ∃ t r, exec .fpq s = .next t ∧ t.responses = r :: s.responses ∧ r.err = .ok ∧
      r.status = statusBits (parseStatusReply s.cfg (s.bytes .rx 0 64))

/-- R116, R107 to R111: for a payload length it accepts, `FPX` answers what `parseDataExchange` returns for the bytes of `RXBUF`, as the
slice that holds them, and changes nothing. -/
def Obligations.FpxAnswersTheParseOfTheResponse : Prop :=
  ∀ (payloadLength ptype : Byte) (s : State), payloadLength.toNat ≤ 61 →
    ∃ r, exec (.fpx payloadLength ptype) s = .next (afterAnswer s r) ∧
      match parseDataExchange (s.bytes .rx 0 64) ptype payloadLength.toNat with
      | .ok bytes => r.err = .ok ∧ s.bytes .rx r.off.toNat r.n.toNat = bytes
      | .checksumMismatch diagnostic =>
        r.err = .checksumMismatch ∧ s.bytes .rx r.off.toNat r.n.toNat = diagnostic ∧ diagnostic.length = 4

/-- R116: the slice `FPX` names, by the comparison it makes and bit 7 of `ptype`. -/
def Obligations.FpxSliceByCheckAndDirection : Prop :=
  ∀ (payloadLength ptype : Byte) (s : State), payloadLength.toNat ≤ 61 →
    ∃ r, exec (.fpx payloadLength ptype) s = .next (afterAnswer s r) ∧
      if s.byte .rx (2 + payloadLength.toNat) = 0x5F ^^^ ptype ^^^ fold (s.bytes .rx 2 payloadLength.toNat) then
        r.err = .ok ∧
          (if ptype.getLsbD 7 then r.off = 0 ∧ r.n.toNat = payloadLength.toNat + 2
          else r.off = 2 ∧ r.n.toNat = payloadLength.toNat)
      else r.err = .checksumMismatch ∧ r.off = 0 ∧ r.n = 4

/-- R117 items 4 and 5: `FPX` succeeds exactly when `CSRX` on the same bytes says `ok`, and exactly one value of the check byte makes it
succeed. -/
def Obligations.FpxSucceedsExactlyWhenCsrxDoes : Prop :=
  ∀ (payloadLength ptype : Byte) (s : State), payloadLength.toNat ≤ 61 →
    (∃ r q, exec (.fpx payloadLength ptype) s = .next (afterAnswer s r) ∧
      exec (.csrx .rx 2 payloadLength ptype) s = .next (afterAnswer s q) ∧ (r.err = .ok ↔ q.ok = true)) ∧
    ∃! x : Byte, ∃ t r, exec (.fpx payloadLength ptype) (s.setByte .rx (2 + payloadLength.toNat) x) = .next t ∧
      t.responses = r :: s.responses ∧ r.err = .ok

/-! ## What no operation does -/

/-- R16, R25: no operation but `HWR` to `RXBUF` writes `RXBUF`. -/
def Obligations.OnlyHwrWritesTheResponseBuffer : Prop :=
  ∀ (i : Instr) (s t : State), exec i s = .next t → (∀ addr data, i ≠ .hwr .rx addr data) →
    ∀ a, t.byte .rx a = s.byte .rx a

/-- R17, R171: after an operation that is no builder, `TXLEN` is not zero only if the operation left `TXLEN` and every byte of `TXBUF` as
they were; so a frame reported valid is the one the last builder made. -/
def Obligations.OnlyBuildersMakeAFrameValid : Prop :=
  ∀ (i : Instr) (s t : State), exec i s = .next t → t.txlen ≠ 0 →
    i = .fbq ∨ (∃ isWrite command length, i = .fbx isWrite command length) ∨
      (t.txlen = s.txlen ∧ ∀ a, t.byte .tx a = s.byte .tx a)

/-- R131, R132, R77, R78, R94, R116, R43: the operations that state no write change nothing but the response given. -/
def Obligations.ReadingOperationsWriteNoState : Prop :=
  ∀ (i : Instr) (s t : State), exec i s = .next t →
    ((∃ sel addr, i = .hrd sel addr) ∨ (∃ n, i = .crrd n) ∨ (∃ sel base len, i = .cstx sel base len) ∨
      (∃ sel base len ptype, i = .csrx sel base len ptype) ∨ (∃ kind code, i = .strdy kind code) ∨
      (∃ payloadLength ptype, i = .fpx payloadLength ptype) ∨ (∃ rest, i = .reserved0 rest) ∨
      (∃ op rest, i = .reservedCF op rest)) →
    ∃ r, t = afterAnswer s r

/-- R8: no operation writes the configuration; only reset changes it. -/
def Obligations.ConfigurationIsHeldUntilReset : Prop :=
  ∀ s t : State, step s = .next t →
    t.cfg = s.cfg ∨ ∃ c tx rx later, s.inputs = .reset c tx rx :: later ∧ t.cfg = c

/-- R13: `DIAG.UNK` and `DIAG_RAW` are written together, by a decode to `unknown` and by nothing else; the latest one stays. -/
def Obligations.DiagnosticRecordsTheLatestUnknown : Prop :=
  ∀ (i : Instr) (s t : State), exec i s = .next t →
    match recordedRaw s i with
    | some raw =>
      if (decodeStatus s.cfg raw).kind = .unknown then t.diagUnk = true ∧ t.diagRaw = raw
      else t.diagUnk = s.diagUnk ∧ t.diagRaw = s.diagRaw
    | none => t.diagUnk = s.diagUnk ∧ t.diagRaw = s.diagRaw

/-- R12: once set, `DIAG.UNK` stays set through every step but a reset. -/
def Obligations.OnlyResetClearsTheDiagnostic : Prop :=
  ∀ s t : State, step s = .next t → s.diagUnk = true →
    t.diagUnk = true ∨ ∃ c tx rx later, s.inputs = .reset c tx rx :: later

/-- R12: no result but that of `CRRD 4` and `CRRD 5` depends on the diagnostic record. -/
def Obligations.DiagnosticInfluencesNoOtherResult : Prop :=
  ∀ (i : Instr) (s t : State) (unk : Bool) (raw : Byte), exec i s = .next t →
    (∀ n, i = .crrd n → n ≠ 4 ∧ n ≠ 5) →
    ∃ u, exec i { s with diagUnk := unk, diagRaw := raw } = .next u ∧ u.responses = t.responses ∧
      u.cfg = t.cfg ∧ u.txbuf = t.txbuf ∧ u.txlen = t.txlen ∧ u.rxbuf = t.rxbuf ∧ u.inputs = t.inputs

/-! ## Reset and the invariant -/

/-- R20, R160: the state after reset, for every configuration and every draw of the 64 bytes of each buffer. -/
def Obligations.ResetLeavesTheListedValues : Prop :=
  ∀ (cfg : Cfg) (txDraw rxDraw : List Byte), txDraw.length = 64 → rxDraw.length = 64 →
    (State.resetWith cfg txDraw rxDraw).txlen = 0 ∧ (State.resetWith cfg txDraw rxDraw).diagUnk = false ∧
      (State.resetWith cfg txDraw rxDraw).diagRaw = 0x00 ∧ (State.resetWith cfg txDraw rxDraw).cfg = cfg ∧
      (State.resetWith cfg txDraw rxDraw).bytes .tx 0 64 = txDraw ∧
      (State.resetWith cfg txDraw rxDraw).bytes .rx 0 64 = rxDraw

/-- R160, R161: reset can be asserted in every state and leaves nothing of it: the state is the one of R20, with the configuration
inputs then present. That the host's later moves are kept is the model's choice (log 11), and that a configuration outside its legal
ranges is refused here is read from R8 and U14 (log 7). -/
def Obligations.ResetFromEveryState : Prop :=
  ∀ (s : State) (cfg : Cfg) (txDraw rxDraw : List Byte) (later : List HostMove),
    s.inputs = .reset cfg txDraw rxDraw :: later →
    if cfg.maxPayload.toNat ≤ 60 ∧ cfg.maxSpiLen.toNat ≤ 191 then
      ∃ t, step s = .next t ∧ t.txlen = 0 ∧ t.diagUnk = false ∧ t.diagRaw = 0x00 ∧ t.cfg = cfg ∧ t.inputs = later ∧
        ∀ sel a, t.byte sel a = (State.resetWith cfg txDraw rxDraw).byte sel a
    else step s = .refused .illFormedConfiguration

/-- R8, R17, R160: the invariant holds after reset with every legal configuration and every draw, and of the model's reset state (whose
configuration and draw are the model's choice, logs 4 and 6). The canonical form of both buffers, a part of the invariant, is the
model's own (log 5). -/
def Obligations.InvariantHoldsAfterReset : Prop :=
  (∀ (cfg : Cfg) (txDraw rxDraw : List Byte), cfg.wf = true → Inv (State.resetWith cfg txDraw rxDraw)) ∧
    Inv State.reset

/-- R17, with the canonical form of the buffers (the model's, log 5) and the legal configuration (R8): every step keeps the
invariant, so whenever `TXLEN` is not zero `TXBUF[0 .. TXLEN)` is exactly a frame that a builder returns. -/
def Obligations.EveryStepKeepsTheInvariant : Prop :=
  ∀ s t : State, Inv s → step s = .next t → Inv t

/-- R17: under the invariant `TXLEN` is 0 or 4 to 64, at most `MAX_PAYLOAD + 4` unless it is the 5 of a status query; the frame to
send carries its own check, or is the status query. -/
def Obligations.ValidFrameHasALegalLength : Prop :=
  ∀ s : State, Inv s →
    (frameToSend s = none ∧ s.txlen = 0) ∨
      ∃ frame, frameToSend s = some frame ∧ frame.length = s.txlen.toNat ∧ 4 ≤ frame.length ∧ frame.length ≤ 64 ∧
        (frame = [0x01, 0x00, 0x00, 0x00, 0x00] ∨
          (frame.length ≤ s.cfg.maxPayload.toNat + 4 ∧ fold (frame.drop 1) = 0x5F))
end

