-- ==== Sys2Proof/Laws/Encoding.lean ====
section
/-! SUPPORT. The fields of a word that the encoder builds (R40), said once. -/

namespace Sys2Proof.Laws

variable (op : BitVec 4) (f : BitVec 1) (a b c : Byte)

theorem pack_bit (i : Nat) (h : i < 32) : (pack op f a b c).getLsbD i =
    if i < 8 then c.getLsbD i else if i < 16 then b.getLsbD (i - 8) else if i < 24 then a.getLsbD (i - 16)
    else if i < 25 then f.getLsbD (i - 24) else if i < 28 then false else op.getLsbD (i - 28) := by
  have hd : (pack op f a b c) = op ++ 0#3 ++ f ++ a ++ b ++ c := rfl
  rw [hd]
  simp only [BitVec.getLsbD_append]
  split_ifs <;> first | rfl | omega | simp

@[simp] theorem opField_pack : opField (pack op f a b c) = op := by
  apply BitVec.eq_of_getLsbD_eq
  intro i hi
  simp only [opField, BitVec.getLsbD_extractLsb', hi, decide_true, Bool.true_and]
  rw [pack_bit _ _ _ _ _ _ (by omega)]
  simp only [show ¬ 28 + i < 8 by omega, show ¬ 28 + i < 16 by omega, show ¬ 28 + i < 24 by omega,
    show ¬ 28 + i < 25 by omega, show ¬ 28 + i < 28 by omega, if_false, show 28 + i - 28 = i by omega]

@[simp] theorem zeroField_pack : zeroField (pack op f a b c) = 0 := by
  apply BitVec.eq_of_getLsbD_eq
  intro i hi
  simp only [zeroField, BitVec.getLsbD_extractLsb', hi, decide_true, Bool.true_and]
  rw [pack_bit _ _ _ _ _ _ (by omega)]
  simp only [show ¬ 25 + i < 8 by omega, show ¬ 25 + i < 16 by omega, show ¬ 25 + i < 24 by omega,
    show ¬ 25 + i < 25 by omega, show 25 + i < 28 by omega, if_false, if_true]
  simp

@[simp] theorem fField_pack : fField (pack op f a b c) = f := by
  apply BitVec.eq_of_getLsbD_eq
  intro i hi
  simp only [fField, BitVec.getLsbD_extractLsb', hi, decide_true, Bool.true_and]
  rw [pack_bit _ _ _ _ _ _ (by omega)]
  simp only [show ¬ 24 + i < 8 by omega, show ¬ 24 + i < 16 by omega, show ¬ 24 + i < 24 by omega,
    show 24 + i < 25 by omega, if_false, if_true, show 24 + i - 24 = i by omega]

@[simp] theorem aField_pack : aField (pack op f a b c) = a := by
  apply BitVec.eq_of_getLsbD_eq
  intro i hi
  simp only [aField, BitVec.getLsbD_extractLsb', hi, decide_true, Bool.true_and]
  rw [pack_bit _ _ _ _ _ _ (by omega)]
  simp only [show ¬ 16 + i < 8 by omega, show ¬ 16 + i < 16 by omega, show 16 + i < 24 by omega,
    if_false, if_true, show 16 + i - 16 = i by omega]

@[simp] theorem bField_pack : bField (pack op f a b c) = b := by
  apply BitVec.eq_of_getLsbD_eq
  intro i hi
  simp only [bField, BitVec.getLsbD_extractLsb', hi, decide_true, Bool.true_and]
  rw [pack_bit _ _ _ _ _ _ (by omega)]
  simp only [show ¬ 8 + i < 8 by omega, show 8 + i < 16 by omega,
    if_false, if_true, show 8 + i - 8 = i by omega]

@[simp] theorem cField_pack : cField (pack op f a b c) = c := by
  apply BitVec.eq_of_getLsbD_eq
  intro i hi
  simp only [cField, BitVec.getLsbD_extractLsb', hi, decide_true, Bool.true_and]
  rw [pack_bit _ _ _ _ _ _ (by omega)]
  simp only [Nat.zero_add, hi, if_true]

@[simp] theorem bHighField_pack (hi lo : BitVec 4) : bHighField (pack op f a (hi ++ lo) c) = hi := by
  apply BitVec.eq_of_getLsbD_eq
  intro i h
  simp only [bHighField, BitVec.getLsbD_extractLsb', h, decide_true, Bool.true_and]
  rw [pack_bit _ _ _ _ _ _ (by omega)]
  rw [if_neg (by omega), if_pos (by omega), BitVec.getLsbD_append, if_neg (by omega)]
  congr 1; omega

@[simp] theorem kindField_pack (hi lo : BitVec 4) : kindField (pack op f a (hi ++ lo) c) = lo := by
  apply BitVec.eq_of_getLsbD_eq
  intro i h
  simp only [kindField, BitVec.getLsbD_extractLsb', h, decide_true, Bool.true_and]
  rw [pack_bit _ _ _ _ _ _ (by omega)]
  rw [if_neg (by omega), if_pos (by omega), BitVec.getLsbD_append, if_pos (by omega)]
  congr 1; omega

@[simp] theorem selOfBit_bitOfSel (sel : BufSel) : selOfBit (bitOfSel sel) = sel := by cases sel <;> rfl
@[simp] theorem dirOfBit_bitOfDir (w : Bool) : dirOfBit (bitOfDir w) = w := by cases w <;> rfl

end Sys2Proof.Laws
end

