-- ==== Sys2Proof/Laws/State.lean ====
section
/-! SUPPORT. One lemma per field per update of State. -/

namespace Sys2Proof.Laws

open Sys2Proof.Machine

variable (s : State)

@[simp] theorem setTxlen_cfg (n : Nat) : (s.setTxlen n).cfg = s.cfg := rfl
@[simp] theorem setTxlen_txbuf (n : Nat) : (s.setTxlen n).txbuf = s.txbuf := rfl
@[simp] theorem setTxlen_txlen (n : Nat) : (s.setTxlen n).txlen = BitVec.ofNat 7 n := rfl
@[simp] theorem setTxlen_rxbuf (n : Nat) : (s.setTxlen n).rxbuf = s.rxbuf := rfl
@[simp] theorem setTxlen_diagUnk (n : Nat) : (s.setTxlen n).diagUnk = s.diagUnk := rfl
@[simp] theorem setTxlen_diagRaw (n : Nat) : (s.setTxlen n).diagRaw = s.diagRaw := rfl
@[simp] theorem setTxlen_inputs (n : Nat) : (s.setTxlen n).inputs = s.inputs := rfl
@[simp] theorem setTxlen_responses (n : Nat) : (s.setTxlen n).responses = s.responses := rfl
@[simp] theorem setTxlen_byte (n : Nat) (sel : BufSel) (a : Nat) : (s.setTxlen n).byte sel a = s.byte sel a := by
  cases sel <;> rfl
@[simp] theorem setTxlen_bytes (n : Nat) (sel : BufSel) (a len : Nat) :
    (s.setTxlen n).bytes sel a len = s.bytes sel a len := by
  cases sel <;> rfl

@[simp] theorem setByte_tx_txbuf (a : Nat) (v : Byte) : (s.setByte .tx a v).txbuf = Memory.write s.txbuf a v := rfl
@[simp] theorem setByte_tx_rxbuf (a : Nat) (v : Byte) : (s.setByte .tx a v).rxbuf = s.rxbuf := rfl
@[simp] theorem setByte_rx_txbuf (a : Nat) (v : Byte) : (s.setByte .rx a v).txbuf = s.txbuf := rfl
@[simp] theorem setByte_rx_rxbuf (a : Nat) (v : Byte) : (s.setByte .rx a v).rxbuf = Memory.write s.rxbuf a v := rfl
@[simp] theorem setByte_cfg (sel : BufSel) (a : Nat) (v : Byte) : (s.setByte sel a v).cfg = s.cfg := by cases sel <;> rfl
@[simp] theorem setByte_txlen (sel : BufSel) (a : Nat) (v : Byte) : (s.setByte sel a v).txlen = s.txlen := by
  cases sel <;> rfl
@[simp] theorem setByte_diagUnk (sel : BufSel) (a : Nat) (v : Byte) : (s.setByte sel a v).diagUnk = s.diagUnk := by
  cases sel <;> rfl
@[simp] theorem setByte_diagRaw (sel : BufSel) (a : Nat) (v : Byte) : (s.setByte sel a v).diagRaw = s.diagRaw := by
  cases sel <;> rfl
@[simp] theorem setByte_inputs (sel : BufSel) (a : Nat) (v : Byte) : (s.setByte sel a v).inputs = s.inputs := by
  cases sel <;> rfl
@[simp] theorem setByte_responses (sel : BufSel) (a : Nat) (v : Byte) :
    (s.setByte sel a v).responses = s.responses := by
  cases sel <;> rfl

@[simp] theorem touchTxlen_tx : s.touchTxlen .tx = s.setTxlen 0 := rfl
@[simp] theorem touchTxlen_rx : s.touchTxlen .rx = s := rfl

@[simp] theorem recordDiagnostic_cfg (st : ModuleStatus) : (s.recordDiagnostic st).cfg = s.cfg := by
  unfold State.recordDiagnostic; split <;> rfl
@[simp] theorem recordDiagnostic_txbuf (st : ModuleStatus) : (s.recordDiagnostic st).txbuf = s.txbuf := by
  unfold State.recordDiagnostic; split <;> rfl
@[simp] theorem recordDiagnostic_txlen (st : ModuleStatus) : (s.recordDiagnostic st).txlen = s.txlen := by
  unfold State.recordDiagnostic; split <;> rfl
@[simp] theorem recordDiagnostic_rxbuf (st : ModuleStatus) : (s.recordDiagnostic st).rxbuf = s.rxbuf := by
  unfold State.recordDiagnostic; split <;> rfl
@[simp] theorem recordDiagnostic_inputs (st : ModuleStatus) : (s.recordDiagnostic st).inputs = s.inputs := by
  unfold State.recordDiagnostic; split <;> rfl
@[simp] theorem recordDiagnostic_responses (st : ModuleStatus) : (s.recordDiagnostic st).responses = s.responses := by
  unfold State.recordDiagnostic; split <;> rfl
/-- What recording a status does to the flag (R12). -/
theorem recordDiagnostic_diagUnk (st : ModuleStatus) :
    (s.recordDiagnostic st).diagUnk = (decide (st.kind = .unknown) || s.diagUnk) := by
  unfold State.recordDiagnostic; split <;> simp_all
/-- What recording a status does to the raw byte (R13). -/
theorem recordDiagnostic_diagRaw (st : ModuleStatus) :
    (s.recordDiagnostic st).diagRaw = if st.kind = .unknown then st.code else s.diagRaw := by
  unfold State.recordDiagnostic; split <;> simp_all

@[simp] theorem resetWith_cfg (c : Cfg) (tx rx : List Byte) : (State.resetWith c tx rx).cfg = c := rfl
@[simp] theorem resetWith_txlen (c : Cfg) (tx rx : List Byte) : (State.resetWith c tx rx).txlen = 0 := rfl
@[simp] theorem resetWith_txbuf (c : Cfg) (tx rx : List Byte) :
    (State.resetWith c tx rx).txbuf = Memory.ofDraw tx := rfl
@[simp] theorem resetWith_rxbuf (c : Cfg) (tx rx : List Byte) :
    (State.resetWith c tx rx).rxbuf = Memory.ofDraw rx := rfl
@[simp] theorem resetWith_diagUnk (c : Cfg) (tx rx : List Byte) : (State.resetWith c tx rx).diagUnk = false := rfl
@[simp] theorem resetWith_diagRaw (c : Cfg) (tx rx : List Byte) : (State.resetWith c tx rx).diagRaw = 0 := rfl
@[simp] theorem resetWith_inputs (c : Cfg) (tx rx : List Byte) : (State.resetWith c tx rx).inputs = [] := rfl
@[simp] theorem resetWith_responses (c : Cfg) (tx rx : List Byte) : (State.resetWith c tx rx).responses = [] := rfl

@[simp] theorem issue_inputs (w : Word) : (s.issue w).inputs = .request w :: s.inputs := rfl
@[simp] theorem issue_cfg (w : Word) : (s.issue w).cfg = s.cfg := rfl

end Sys2Proof.Laws
end

