-- ==== Sys2Proof/Laws/Memory.lean ====
section
/-! SUPPORT. The laws of one buffer: a read after a write, the canonical form kept by every operation, and the bytes of a
slice. -/

namespace Sys2Proof.Laws

open Sys2Proof.Machine

/-! ## Reading after writing -/

theorem read_insert_same (m : Memory) (a : Nat) (v : Byte) : Memory.read (Memory.insert m a v) a = v := by
  induction m with
  | nil => simp [Memory.insert, Memory.read]
  | cons cell rest ih =>
    obtain ⟨k, w⟩ := cell
    unfold Memory.insert
    split
    · simp [Memory.read]
    · split
      · simp [Memory.read]
      · have : k ≠ a := fun h => by simp_all
        simp [Memory.read, this, ih]

theorem read_insert_other (m : Memory) (a b : Nat) (v : Byte) (h : b ≠ a) :
    Memory.read (Memory.insert m a v) b = Memory.read m b := by
  induction m with
  | nil => simp [Memory.insert, Memory.read, Ne.symm h]
  | cons cell rest ih =>
    obtain ⟨k, w⟩ := cell
    unfold Memory.insert
    split
    · simp [Memory.read, Ne.symm h]
    · split
      · subst k; simp [Memory.read, Ne.symm h]
      · simp [Memory.read, ih]

theorem read_erase_same (m : Memory) (a : Nat) : Memory.read (Memory.erase m a) a = unlistedByte := by
  induction m with
  | nil => rfl
  | cons cell rest ih =>
    obtain ⟨k, w⟩ := cell
    by_cases hk : k = a
    · simpa [Memory.erase, hk] using ih
    · simpa [Memory.erase, hk, Memory.read] using ih

theorem read_erase_other (m : Memory) (a b : Nat) (h : b ≠ a) :
    Memory.read (Memory.erase m a) b = Memory.read m b := by
  induction m with
  | nil => rfl
  | cons cell rest ih =>
    obtain ⟨k, w⟩ := cell
    by_cases hk : k = a
    · subst k; simpa [Memory.erase, Memory.read, Ne.symm h] using ih
    · by_cases hb : k = b
      · subst hb; simp [Memory.erase, hk, Memory.read]
      · simpa [Memory.erase, hk, Memory.read, hb] using ih

@[simp] theorem read_write_same (m : Memory) (a : Nat) (v : Byte) : Memory.read (Memory.write m a v) a = v := by
  unfold Memory.write
  split
  · rw [read_erase_same]; simp_all
  · exact read_insert_same m a v

theorem read_write_other (m : Memory) (a b : Nat) (v : Byte) (h : b ≠ a) :
    Memory.read (Memory.write m a v) b = Memory.read m b := by
  unfold Memory.write
  split
  · exact read_erase_other m a b h
  · exact read_insert_other m a b v h

/-- What a write does to every byte of its buffer. -/
theorem read_write (m : Memory) (a b : Nat) (v : Byte) :
    Memory.read (Memory.write m a v) b = if b = a then v else Memory.read m b := by
  split
  · subst b; exact read_write_same m a v
  · exact read_write_other m a b v ‹_›

/-! ## The canonical form -/

theorem wfFrom_mono (m : Memory) {lo lo' : Nat} (h : lo ≤ lo') (hw : Memory.wfFrom lo' m = true) :
    Memory.wfFrom lo m = true := by
  cases m with
  | nil => rfl
  | cons cell rest =>
    simp only [Memory.wfFrom, Bool.and_eq_true, decide_eq_true_eq] at hw ⊢
    exact ⟨⟨⟨by omega, hw.1.1.2⟩, hw.1.2⟩, hw.2⟩

theorem wfFrom_erase (m : Memory) (a lo : Nat) (hw : Memory.wfFrom lo m = true) :
    Memory.wfFrom lo (Memory.erase m a) = true := by
  induction m generalizing lo with
  | nil => rfl
  | cons cell rest ih =>
    obtain ⟨k, w⟩ := cell
    simp only [Memory.wfFrom, Bool.and_eq_true, decide_eq_true_eq] at hw
    by_cases hk : k = a
    · have := wfFrom_mono _ (by omega : lo ≤ k + 1) (ih (k + 1) hw.2)
      simpa [Memory.erase, hk] using this
    · have := ih (k + 1) hw.2
      simp only [Memory.erase] at this
      simp [Memory.erase, hk, Memory.wfFrom, hw.1.1.1, hw.1.1.2, hw.1.2, this]

theorem wfFrom_insert (m : Memory) (a lo : Nat) (v : Byte) (ha : a < frameMax) (hlo : lo ≤ a) (hv : v ≠ unlistedByte)
    (hw : Memory.wfFrom lo m = true) : Memory.wfFrom lo (Memory.insert m a v) = true := by
  induction m generalizing lo with
  | nil => simp [Memory.insert, Memory.wfFrom, ha, hlo, hv]
  | cons cell rest ih =>
    obtain ⟨k, w⟩ := cell
    simp only [Memory.wfFrom, Bool.and_eq_true, decide_eq_true_eq] at hw
    unfold Memory.insert
    split
    · simp only [Memory.wfFrom, Bool.and_eq_true, decide_eq_true_eq]
      exact ⟨⟨⟨hlo, ha⟩, hv⟩, ⟨⟨by omega, hw.1.1.2⟩, hw.1.2⟩, hw.2⟩
    · split
      · subst a
        simp only [Memory.wfFrom, Bool.and_eq_true, decide_eq_true_eq]
        exact ⟨⟨⟨hlo, ha⟩, hv⟩, hw.2⟩
      · simp only [Memory.wfFrom, Bool.and_eq_true, decide_eq_true_eq]
        exact ⟨hw.1, ih (k + 1) (by omega) hw.2⟩

/-- A write to an address of the buffer keeps the canonical form. -/
theorem wf_write (m : Memory) (a : Nat) (v : Byte) (ha : a < frameMax) (hw : Memory.wf m = true) :
    Memory.wf (Memory.write m a v) = true := by
  unfold Memory.write
  split
  · exact wfFrom_erase m a 0 hw
  · exact wfFrom_insert m a 0 v ha (Nat.zero_le a) ‹_› hw

theorem wfFrom_ofBytesFrom (bytes : List Byte) (a : Nat) (h : a + bytes.length ≤ frameMax) :
    Memory.wfFrom a (Memory.ofBytesFrom a bytes) = true := by
  induction bytes generalizing a with
  | nil => rfl
  | cons v rest ih =>
    have hr := ih (a + 1) (by simp only [List.length_cons] at h; omega)
    unfold Memory.ofBytesFrom
    split
    · exact wfFrom_mono _ (by omega) hr
    · simp only [Memory.wfFrom, Bool.and_eq_true, decide_eq_true_eq]
      refine ⟨⟨⟨Nat.le_refl a, ?_⟩, ‹_›⟩, hr⟩
      simp only [List.length_cons] at h; omega

/-- A power-on draw gives a buffer in canonical form. -/
theorem wf_ofDraw (draw : List Byte) : Memory.wf (Memory.ofDraw draw) = true :=
  wfFrom_ofBytesFrom _ 0 (by simp [frameMax])

theorem read_ofBytesFrom_below (bytes : List Byte) (a b : Nat) (h : b < a) :
    Memory.read (Memory.ofBytesFrom a bytes) b = unlistedByte := by
  induction bytes generalizing a with
  | nil => rfl
  | cons v rest ih =>
    unfold Memory.ofBytesFrom
    split
    · exact ih (a + 1) (by omega)
    · have : a ≠ b := by omega
      simp [Memory.read, this, ih (a + 1) (by omega)]

theorem read_ofBytesFrom (bytes : List Byte) (a i : Nat) :
    Memory.read (Memory.ofBytesFrom a bytes) (a + i) = bytes.getD i unlistedByte := by
  induction bytes generalizing a i with
  | nil => rfl
  | cons v rest ih =>
    unfold Memory.ofBytesFrom
    cases i with
    | zero =>
      split
      · rw [read_ofBytesFrom_below _ _ _ (by omega)]; simp_all
      · simp [Memory.read]
    | succ j =>
      have := ih (a + 1) j
      rw [show a + 1 + j = a + (j + 1) by omega] at this
      split
      · simpa using this
      · have hne : a ≠ a + (j + 1) := by omega
        simp only [Memory.read, if_neg hne]
        simpa using this

/-- A byte of the buffer after reset is the byte of the draw. -/
theorem read_ofDraw (draw : List Byte) (i : Nat) (h : i < frameMax) :
    Memory.read (Memory.ofDraw draw) i = draw.getD i unlistedByte := by
  have := read_ofBytesFrom (draw.take frameMax) 0 i
  simp only [Nat.zero_add] at this
  rw [Memory.ofDraw, this]
  simp [List.getD_eq_getElem?_getD, h]

/-! ## Slices -/

@[simp] theorem length_slice (m : Memory) (base len : Nat) : (Memory.slice m base len).length = len := by
  induction len generalizing base with
  | zero => rfl
  | succ n ih => simp [Memory.slice, ih]

/-- Each byte of a slice is the byte at its address. -/
theorem getElem?_slice (m : Memory) (base len i : Nat) (h : i < len) :
    (Memory.slice m base len)[i]? = some (Memory.read m (base + i)) := by
  induction len generalizing base i with
  | zero => omega
  | succ n ih =>
    cases i with
    | zero => simp [Memory.slice]
    | succ j =>
      simp only [Memory.slice, List.getElem?_cons_succ]
      rw [ih (base + 1) j (by omega), show base + 1 + j = base + (j + 1) by omega]

/-- A slice is cut in two at any point. -/
theorem slice_append (m : Memory) (base len len' : Nat) :
    Memory.slice m base (len + len') = Memory.slice m base len ++ Memory.slice m (base + len) len' := by
  induction len generalizing base with
  | zero => simp [Memory.slice]
  | succ n ih =>
    rw [show n + 1 + len' = (n + len') + 1 by omega]
    simp only [Memory.slice, List.cons_append]
    rw [ih (base + 1), show base + 1 + n = base + (n + 1) by omega]

/-- Two buffers that agree on a window have the same slice there. -/
theorem slice_congr (m m' : Memory) (base len : Nat)
    (h : ∀ a, base ≤ a → a < base + len → Memory.read m a = Memory.read m' a) :
    Memory.slice m base len = Memory.slice m' base len := by
  induction len generalizing base with
  | zero => rfl
  | succ n ih =>
    simp only [Memory.slice]
    rw [h base (Nat.le_refl _) (by omega), ih (base + 1) fun a h1 h2 => h a (by omega) (by omega)]

end Sys2Proof.Laws
end

