-- ==== Sys2Proof/Laws/Ops.lean ====
section
/-! SUPPORT. Each shared operation, said once: what it answers, and what can be concluded when it answers a next state. -/

namespace Sys2Proof.Laws

open Sys2Proof.Machine

/-! ## The bytes of a state -/

/-- What writing one byte does to every byte of both buffers. -/
theorem byte_setByte (s : State) (sel sel' : BufSel) (a b : Nat) (v : Byte) :
    (s.setByte sel a v).byte sel' b = if sel' = sel ∧ b = a then v else s.byte sel' b := by
  cases sel <;> cases sel' <;> simp [State.byte, State.buf, State.setByte, read_write]

theorem getElem?_bytes (s : State) (sel : BufSel) (base len i : Nat) (h : i < len) :
    (s.bytes sel base len)[i]? = some (s.byte sel (base + i)) := getElem?_slice _ _ _ _ h

@[simp] theorem length_bytes (s : State) (sel : BufSel) (base len : Nat) : (s.bytes sel base len).length = len :=
  length_slice _ _ _

/-- Two states whose buffer agrees on a window have the same bytes there. -/
theorem bytes_congr (s t : State) (sel : BufSel) (base len : Nat)
    (h : ∀ a, base ≤ a → a < base + len → s.byte sel a = t.byte sel a) :
    s.bytes sel base len = t.bytes sel base len := slice_congr _ _ _ _ h

theorem bytes_append (s : State) (sel : BufSel) (base len len' : Nat) :
    s.bytes sel base (len + len') = s.bytes sel base len ++ s.bytes sel (base + len) len' := slice_append _ _ _ _

theorem bytes_cons (s : State) (sel : BufSel) (base len : Nat) :
    s.bytes sel base (len + 1) = s.byte sel base :: s.bytes sel (base + 1) len := rfl

/-- The last byte of a window, apart. -/
theorem bytes_snoc (s : State) (sel : BufSel) (base len : Nat) :
    s.bytes sel base (len + 1) = s.bytes sel base len ++ [s.byte sel (base + len)] := bytes_append _ _ _ _ _

/-! ## Accesses -/

theorem memRead_of_lt (s : State) (sel : BufSel) (a : Nat) (k : Byte → Result) (h : a < 64) :
    s.memRead sel a k = k (s.byte sel a) := if_pos h

theorem memWindow_of_le (s : State) (sel : BufSel) (base len : Nat) (k : List Byte → Result) (h : base + len ≤ 64) :
    s.memWindow sel base len k = k (s.bytes sel base len) := if_pos h

theorem memWrite_of_lt (s : State) (sel : BufSel) (a : Nat) (v : Byte) (k : State → Result) (h : a < 64) :
    s.memWrite sel a v k = k (s.setByte sel a v) := if_pos h

theorem memRead_next (s t : State) (sel : BufSel) (a : Nat) (k : Byte → Result) (h : s.memRead sel a k = .next t) :
    a < 64 ∧ k (s.byte sel a) = .next t := by
  unfold State.memRead at h
  split at h
  · exact ⟨‹_›, h⟩
  · cases h

theorem memWindow_next (s t : State) (sel : BufSel) (base len : Nat) (k : List Byte → Result)
    (h : s.memWindow sel base len k = .next t) : base + len ≤ 64 ∧ k (s.bytes sel base len) = .next t := by
  unfold State.memWindow at h
  split at h
  · exact ⟨‹_›, h⟩
  · cases h

theorem memWrite_next (s t : State) (sel : BufSel) (a : Nat) (v : Byte) (k : State → Result)
    (h : s.memWrite sel a v k = .next t) : a < 64 ∧ k (s.setByte sel a v) = .next t := by
  unfold State.memWrite at h
  split at h
  · exact ⟨‹_›, h⟩
  · cases h

/-! ## Responses -/

theorem respond_next (s t : State) (r : Response) (h : s.respond r = .next t) :
    t = { s with responses := r :: s.responses } := by
  cases h; rfl

theorem raise_next (s t : State) (e : Err) (h : s.raise e = .next t) :
    t = { s with responses := { err := e } :: s.responses } := by
  cases h; rfl

theorem respondStatus_next (s t : State) (raw : Byte) (h : s.respondStatus raw = .next t) :
    t = { s.recordDiagnostic (decodeStatus s.cfg raw) with
          responses := { err := .ok, status := statusBits (decodeStatus s.cfg raw) } :: s.responses } := by
  have := respond_next _ _ _ h
  simpa using this

/-! ## The reset input and the step -/

theorem applyReset_next (s t : State) (c : Cfg) (tx rx : List Byte) (h : s.applyReset c tx rx = .next t) :
    c.wf = true ∧ t = { State.resetWith c tx rx with inputs := s.inputs } := by
  unfold State.applyReset at h
  split at h
  · cases h; exact ⟨‹_›, rfl⟩
  · cases h

theorem perform_next (s t : State) (w : Word) (h : s.perform w = .next t) :
    s.cfg.wf = true ∧ ((∃ i, decode w = .ok i ∧ exec i s = .next t) ∨
      (∃ e, decode w = .error e ∧ s.raise .illegalRequest = .next t)) := by
  unfold State.perform at h
  split at h
  · refine ⟨‹_›, ?_⟩
    split at h
    · exact .inl ⟨_, ‹_›, h⟩
    · exact .inr ⟨_, ‹_›, h⟩
  · cases h

/-- Everything a step that answers a next state can be: idle, a request performed, or a reset. -/
theorem step_next (s t : State) (h : step s = .next t) :
    (s.inputs = [] ∧ t = s) ∨
    (∃ w later, s.inputs = .request w :: later ∧ State.perform { s with inputs := later } w = .next t) ∨
    (∃ c tx rx later, s.inputs = .reset c tx rx :: later ∧ c.wf = true ∧
      t = { State.resetWith c tx rx with inputs := later }) := by
  unfold step at h
  split at h
  · cases h; exact .inl ⟨‹_›, rfl⟩
  · rename_i move later hin
    cases move with
    | request w => exact .inr (.inl ⟨w, later, hin, h⟩)
    | reset c tx rx =>
      obtain ⟨hc, ht⟩ := applyReset_next _ _ _ _ _ h
      exact .inr (.inr ⟨c, tx, rx, later, hin, hc, ht⟩)

/-! ## The decoded status -/

@[simp] theorem decodeStatus_code (cfg : Cfg) (raw : Byte) : (decodeStatus cfg raw).code = raw := by
  unfold decodeStatus; split <;> rfl

/-- Appended fields are equal only when both fields are. -/
theorem append_inj {n m : Nat} {x x' : BitVec n} {y y' : BitVec m} (h : x ++ y = x' ++ y') : x = x' ∧ y = y' := by
  constructor
  · apply BitVec.eq_of_getLsbD_eq
    intro i _
    simpa [BitVec.getLsbD_append] using congrArg (fun v => v.getLsbD (m + i)) h
  · apply BitVec.eq_of_getLsbD_eq
    intro i hi
    simpa [BitVec.getLsbD_append, hi] using congrArg (fun v => v.getLsbD i) h

/-- The status operand of `STRDY` is well formed exactly when its 12 bits are those of the decoded code (R59). -/
theorem statusOk_iff (cfg : Cfg) (kind : BitVec 4) (code : Byte) :
    statusOk cfg kind code = true ↔ statusBits (decodeStatus cfg code) = kind ++ code := by
  unfold statusOk statusBits
  rw [decodeStatus_code, beq_iff_eq]
  exact ⟨fun h => by rw [h], fun h => (append_inj h).1.symm⟩

end Sys2Proof.Laws
end

