-- ==== Sys2Proof/Laws/PerInstr.lean ====
section
/-! SUPPORT. Statements about every instruction as text, one lemma per constructor: the word of an operation carries the row's op
code in bits 31:28 and zero in bits 27:25 (R40, R41); a reserved word carries the reserved code (R43). -/

namespace Sys2Proof.Laws

/-- The operation code of an instruction (R41). -/
def opCode : Instr → BitVec 4
  | .hwr _ _ _ => 0x1
  | .hrd _ _ => 0x2
  | .crrd _ => 0x3
  | .cstx _ _ _ => 0x4
  | .csrx _ _ _ _ => 0x5
  | .stdec _ => 0x6
  | .strdy _ _ => 0x7
  | .fbq => 0x8
  | .fbx _ _ _ => 0x9
  | .fpq => 0xA
  | .fpx _ _ => 0xB
  | .reserved0 _ => 0x0
  | .reservedCF op _ => op

/-- The instruction is one of the two reserved rows (R43). -/
def isReserved : Instr → Bool
  | .reserved0 _ => true
  | .reservedCF _ _ => true
  | .hwr _ _ _ => false
  | .hrd _ _ => false
  | .crrd _ => false
  | .cstx _ _ _ => false
  | .csrx _ _ _ _ => false
  | .stdec _ => false
  | .strdy _ _ => false
  | .fbq => false
  | .fbx _ _ _ => false
  | .fpq => false
  | .fpx _ _ => false

theorem opField_append_rest (op : BitVec 4) (rest : BitVec 28) : opField (op ++ rest : BitVec 32) = op := by
  apply BitVec.eq_of_getLsbD_eq
  intro i hi
  simp only [opField, BitVec.getLsbD_extractLsb', hi, decide_true, Bool.true_and, BitVec.getLsbD_append,
    show ¬ 28 + i < 28 by omega, if_false, show 28 + i - 28 = i by omega]

theorem restField_append_rest (op : BitVec 4) (rest : BitVec 28) : restField (op ++ rest : BitVec 32) = rest := by
  apply BitVec.eq_of_getLsbD_eq
  intro i hi
  simp only [restField, BitVec.getLsbD_extractLsb', hi, decide_true, Bool.true_and, BitVec.getLsbD_append,
    Nat.zero_add, if_true]

end Sys2Proof.Laws

namespace Sys2Proof.Laws.OpCodeInPlace

/-- The word of an instruction carries its op code, and zero in bits 27:25 unless it is a reserved word. -/
def Statement (i : Instr) : Prop :=
  opField (encode i) = Laws.opCode i ∧ (Laws.isReserved i = false → zeroField (encode i) = 0)

theorem hwr (sel : BufSel) (addr data : Byte) : Statement (.hwr sel addr data) := by simp [Statement, encode, opCode]
theorem hrd (sel : BufSel) (addr : Byte) : Statement (.hrd sel addr) := by simp [Statement, encode, opCode]
theorem crrd (n : Byte) : Statement (.crrd n) := by simp [Statement, encode, opCode]
theorem cstx (sel : BufSel) (base len : Byte) : Statement (.cstx sel base len) := by simp [Statement, encode, opCode]
theorem csrx (sel : BufSel) (base len ptype : Byte) : Statement (.csrx sel base len ptype) := by
  simp [Statement, encode, opCode]
theorem stdec (raw : Byte) : Statement (.stdec raw) := by simp [Statement, encode, opCode]
theorem strdy (kind : BitVec 4) (code : Byte) : Statement (.strdy kind code) := by simp [Statement, encode, opCode]
theorem fbq : Statement .fbq := by simp [Statement, encode, opCode]
theorem fbx (isWrite : Bool) (command length : Byte) : Statement (.fbx isWrite command length) := by
  simp [Statement, encode, opCode]
theorem fpq : Statement .fpq := by simp [Statement, encode, opCode]
theorem fpx (payloadLength ptype : Byte) : Statement (.fpx payloadLength ptype) := by simp [Statement, encode, opCode]
theorem reserved0 (rest : BitVec 28) : Statement (.reserved0 rest) := by
  refine ⟨opField_append_rest _ _, ?_⟩; simp [isReserved]
theorem reservedCF (op : BitVec 4) (rest : BitVec 28) : Statement (.reservedCF op rest) := by
  refine ⟨opField_append_rest _ _, ?_⟩; simp [isReserved]

end Sys2Proof.Laws.OpCodeInPlace
end

