-- ==== Sys2Proof/Tests/Slice0.lean ====
section
/-! SUPPORT. The model's own tests. Every expected value is the spec's: a vector of `95_test_vectors.md` (named S, K, V, W, Y, B, X,
H, D or P as there) or an example of the rule cited. The last part shows, for each statement with hypotheses, values that meet
them. -/

namespace Sys2Proof.Tests

open Sys2Proof.Machine Sys2Proof.Safety

/-! ## Helpers -/

/-- The default configuration with another `MAX_SPI_LEN`. -/
def cfgSpi (n : Byte) : Cfg := { maxPayload := 35, maxSpiLen := n, fullCount := 64 }

/-- The default configuration with another `MAX_PAYLOAD`. -/
def cfgPay (n : Byte) : Cfg := { maxPayload := n, maxSpiLen := 41, fullCount := 64 }

/-- The state after reset with the two buffers drawn as given, zeros after the given bytes. -/
def start (tx rx : List Byte) : State := State.resetWith standardCfg tx rx

/-- The newest response of a step's outcome. -/
def answer : Result → Option Response
  | .next t => t.responses.head?
  | .fault _ => none
  | .refused _ => none

/-- What the block answers to a request word issued in a state. -/
def answerTo (s : State) (w : Word) : Option Response := answer (step (s.issue w))

/-- The state after a request word has been performed. -/
def after (s : State) (w : Word) : State :=
  match step (s.issue w) with
  | .next t => t
  | .fault _ => s
  | .refused _ => s

/-! ## Well-formedness: each check refuses an ill-formed term -/

theorem test_wf_reserved_op_below_C : (Instr.reservedCF 0xB 0).wf = false ∧ (Instr.reservedCF 0xC 0).wf = true := by decide
theorem test_wf_cfg_payload : (cfgPay 61).wf = false ∧ (cfgPay 60).wf = true := by decide
theorem test_wf_cfg_spi_len : (cfgSpi 192).wf = false ∧ (cfgSpi 191).wf = true := by decide
/-- R59: a fixed kind with another code, and a kind above 10, are not well formed. -/
theorem test_wf_status : statusOk (cfgSpi 41) 2 0x43 = false ∧ statusOk (cfgSpi 41) 11 0x00 = false ∧
    statusOk (cfgSpi 41) 9 0x43 = true := by decide
theorem test_wf_memory : Memory.wf [(3, 0x00)] = false ∧ Memory.wf [(5, 1), (3, 1)] = false ∧ Memory.wf [(64, 1)] = false ∧
    Memory.wf [(3, 1), (63, 1)] = true := by decide

/-! ## Decoding: words written out from the encoding of R40, R41 (programs P1 to P6, vectors H1 to H15) -/

theorem test_decode_hwr : decode 0x1003AA00 = .ok (.hwr .tx 3 0xAA) ∧ decode 0x11013F00 = .ok (.hwr .rx 1 0x3F) := by
  decide
theorem test_decode_hrd : decode 0x203F0000 = .ok (.hrd .tx 63) ∧ decode 0x21020000 = .ok (.hrd .rx 2) := by decide
theorem test_decode_crrd : decode 0x30030000 = .ok (.crrd 3) := by decide
theorem test_decode_cstx : decode 0x40010400 = .ok (.cstx .tx 1 4) := by decide
theorem test_decode_csrx : decode 0x51020303 = .ok (.csrx .rx 2 3 0x03) := by decide
theorem test_decode_stdec : decode 0x60000055 = .ok (.stdec 0x55) := by decide
theorem test_decode_strdy : decode 0x70000A6A = .ok (.strdy 10 0x6A) := by decide
theorem test_decode_fbq : decode 0x80000000 = .ok .fbq := by decide
theorem test_decode_fbx : decode 0x91F02400 = .ok (.fbx true 0xF0 36) ∧ decode 0x90F00300 = .ok (.fbx false 0xF0 3) := by
  decide
theorem test_decode_fpq : decode 0xA0000000 = .ok .fpq := by decide
theorem test_decode_fpx : decode 0xB0003DBD = .ok (.fpx 61 0xBD) := by decide
theorem test_decode_reserved_0 : decode 0x00000000 = .ok (.reserved0 0) ∧ decode 0x0FFFFFFF = .ok (.reserved0 0xFFFFFFF) := by
  decide
theorem test_decode_reserved_C_F : decode 0xC0003E00 = .ok (.reservedCF 0xC 0x3E00) ∧
    decode 0xFFFFFFFF = .ok (.reservedCF 0xF 0xFFFFFFF) := by decide
/-- H5, H6, H11, H13, H15, Y14, W9, X16, X17 and those of sections 3 and 4: words with a must-be-zero bit set. -/
theorem test_decode_rejects : decode 0x12000000 = .error (.zeroFieldSet 1) ∧ decode 0x10400001 = .error (.unusedFieldSet 1) ∧
    decode 0x20000100 = .error (.unusedFieldSet 2) ∧ decode 0x31000000 = .error (.unusedFieldSet 3) ∧
    decode 0xB2003E00 = .error (.zeroFieldSet 0xB) ∧ decode 0x70001943 = .error (.unusedFieldSet 7) ∧
    decode 0x40000001 = .error (.unusedFieldSet 4) ∧ decode 0xB1000303 = .error (.unusedFieldSet 0xB) ∧
    decode 0xB0010303 = .error (.unusedFieldSet 0xB) ∧ decode 0x60000100 = .error (.unusedFieldSet 6) ∧
    decode 0x61000043 = .error (.unusedFieldSet 6) ∧ decode 0x80000001 = .error (.unusedFieldSet 8) ∧
    decode 0x81000000 = .error (.unusedFieldSet 8) ∧ decode 0xA1000000 = .error (.unusedFieldSet 0xA) := by decide
theorem test_decode_table_word : decodeTableWord 32 0x91F00200 = some (.fbx true 0xF0 2) ∧
    decodeTableWord 32 0x12000000 = none := by decide

/-! ## Pure functions -/

/-- K1, K3, K6, K7, K14, K15. -/
theorem test_computeTx : computeTx [] = 0x5F ∧ computeTx [0x5F] = 0x00 ∧ computeTx [0xF0, 0x82, 0xAA, 0xBB] = 0x3C ∧
    computeTx [0xF0, 0x03, 0x00, 0x00, 0x00] = 0xAC ∧ computeTx [0xAA, 0xBB] = 0x4E ∧ computeTx [0xBB, 0xAA] = 0x4E := by decide
/-- V1 to V9. -/
theorem test_verifyRx : verifyRx [0x5F] 0x00 0 = true ∧ verifyRx [0x5E] 0x00 0 = false ∧ verifyRx [0xDD] 0x82 0 = true ∧
    verifyRx [0x11, 0x22, 0x33, 0x5C] 0x03 3 = true ∧ verifyRx [0x11, 0x22, 0x33, 0x5D] 0x03 3 = false ∧
    verifyRx [0x11, 0x22, 0x33, 0x5C] 0x83 3 = false ∧ verifyRx [0xAA, 0xBB, 0xCC] 0x82 2 = true ∧
    verifyRx [0x11, 0x22, 0x6E, 0x99] 0x02 2 = true := by decide
/-- Table D, `MAX_SPI_LEN` 41. -/
theorem test_decodeStatus_41 : ([0x00, 0x01, 0x07, 0x3D, 0x3E, 0x3F, 0x40, 0x69, 0x6A, 0x7F, 0x80, 0x83, 0x84, 0xFF].map
      fun raw => statusBits (decodeStatus (cfgSpi 41) raw)) =
    [0x000, 0xA01, 0x107, 0xA3D, 0x33E, 0x23F, 0x940, 0x969, 0xA6A, 0xA7F, 0x480, 0x783, 0xA84, 0x8FF] := by decide
/-- Table D, `MAX_SPI_LEN` 64. -/
theorem test_decodeStatus_64 : ([0x6A, 0x7F, 0x80, 0x81, 0x82, 0x84].map
      fun raw => statusBits (decodeStatus (cfgSpi 64) raw)) = [0x96A, 0x97F, 0x480, 0x581, 0x682, 0xA84] := by decide
/-- Table D, the counts. -/
theorem test_bytesReady : ([0x3F, 0x40, 0x41, 0x55, 0x69, 0x6A, 0x80].map
      fun raw => bytesReady (cfgSpi 41) (decodeStatus (cfgSpi 41) raw)) = [0, 64, 1, 21, 41, 0, 0] ∧
    bytesReady (cfgSpi 64) (decodeStatus (cfgSpi 64) 0x7F) = 63 ∧
    bytesReady (cfgSpi 64) (decodeStatus (cfgSpi 64) 0x80) = 0 := by decide
/-- R51's examples. -/
theorem test_packPtype : packPtype 2 true = 0x82 ∧ packPtype 2 false = 0x02 ∧ packPtype 0 true = 0x80 ∧
    packPtype 0 false = 0x00 ∧ packPtype 35 true = 0xA3 ∧ packPtype 35 false = 0x23 := by decide
/-- B1, B3, B6, B18. -/
theorem test_buildDataExchange : buildDataExchange (cfgPay 35) 0xF0 [0xAA, 0xBB] 2 true = [0x01, 0xF0, 0x82, 0xAA, 0xBB, 0x3C] ∧
    buildDataExchange (cfgPay 35) 0xF0 [] 0 false = [0x01, 0xF0, 0x00, 0xAF] ∧
    buildDataExchange (cfgPay 35) 0x00 [] 0 false = [0x01, 0x00, 0x00, 0x5F] ∧
    buildDataExchange (cfgPay 0) 0xF0 [0x10, 0x11] 5 true = [0x01, 0xF0, 0x80, 0x2F] := by decide
/-- X1, X2, X4, X8. -/
theorem test_parseDataExchange :
    parseDataExchange [0x00, 0x00, 0x11, 0x22, 0x33, 0x5C] 0x03 3 = .ok [0x11, 0x22, 0x33] ∧
    parseDataExchange [0x00, 0x00, 0x11, 0x22, 0x33, 0x5D] 0x03 3 = .checksumMismatch [0x00, 0x00, 0x11, 0x22] ∧
    parseDataExchange [0x9A, 0x9B, 0xAA, 0xBB, 0xCC] 0x82 2 = .ok [0x9A, 0x9B, 0xAA, 0xBB] ∧
    parseDataExchange [0x12, 0x34, 0x5E, 0xEE] 0x00 0 = .checksumMismatch [0x12, 0x34, 0x5E, 0xEE] := by decide
/-- R63's examples. -/
theorem test_assemblyText : assemblyText (.fbx true 0xF0 2) = some "FBX WR, 240, 2" ∧
    assemblyText (.strdy 9 0x43) = some "STRDY data_ready, 67" ∧ assemblyText (.reserved0 0) = none := by decide
/-- R64: the `FILL` of program P4's first words, a `DUMP` of P3, and the second request of `DRDY` in P1. -/
theorem test_pseudo_operations :
    (fillOps .tx 3 [0x10, 0x11]).map requestMoves = some [.request 0x10031000, .request 0x10041100] ∧
    (dumpOps .tx 0 2).map requestMoves = some [.request 0x20000000, .request 0x20010000] ∧
    requestMoves [drdyFirst, drdySecond { err := .ok, status := 0x23F }] = [.request 0xA0000000, .request 0x7000023F] := by
  decide

/-! ## One step each -/

/-- H8: the byte is written and `TXLEN` cleared. -/
theorem test_hwr_writes : (after { start [] [] with txlen := 5 } 0x103F5500).byte .tx 63 = 0x55 ∧
    (after { start [] [] with txlen := 5 } 0x103F5500).txlen = 0 := by decide
/-- H7: an address past 63 writes nothing and does not clear `TXLEN`. -/
theorem test_hwr_out_of_range : answerTo (start [] []) 0x10405500 = some { err := .invalidArgument } ∧
    (after { start [] [] with txlen := 5 } 0x10405500).txlen = 5 := by decide
/-- P3, steps 31 and 32. -/
theorem test_hrd : answerTo (start [] [0x00, 0x00, 0x11, 0x23]) 0x21030000 = some { err := .ok, data := 0x23 } := by decide
/-- H10. -/
theorem test_hrd_out_of_range : answerTo (start [] []) 0x21400000 = some { err := .invalidArgument } := by decide
/-- The table at the end of section 5. -/
theorem test_crrd : ([0x30000000, 0x30010000, 0x30020000, 0x30030000, 0x30040000, 0x30050000].map
      (answerTo (start [] []))) =
    [0x23, 0x29, 0x40, 0x00, 0x00, 0x00].map fun d => some { err := .ok, data := d } := by decide
/-- H12. -/
theorem test_crrd_out_of_range : answerTo (start [] []) 0x30060000 = some { err := .invalidArgument } := by decide
/-- P2, step 12. -/
theorem test_cstx : answerTo (start [0x01, 0xF0, 0x82, 0xAA, 0xBB, 0x3C] []) 0x40010400 =
    some { err := .ok, csum := 0x3C } := by decide
/-- W3, W4. -/
theorem test_cstx_bound : answerTo (start [] []) 0x40400000 = some { err := .ok, csum := 0x5F } ∧
    answerTo (start [] []) 0x40410000 = some { err := .invalidArgument } := by decide
/-- R78's example and its corrupted form. -/
theorem test_csrx : answerTo (start [] [0x00, 0x00, 0x11, 0x22, 0x6E]) 0x51020202 = some { err := .ok, ok := true } ∧
    answerTo (start [] [0x00, 0x00, 0x11, 0x22, 0x6F]) 0x51020202 = some { err := .ok, ok := false } := by decide
/-- W7, W8. -/
theorem test_csrx_bound : answerTo (start [] []) 0x513F0000 = some { err := .ok, ok := false } ∧
    answerTo (start [] []) 0x51400000 = some { err := .invalidArgument } := by decide
/-- P5, step 12: an unknown status is recorded. -/
theorem test_stdec_unknown : answerTo (start [] []) 0x60000084 = some { err := .ok, status := 0xA84 } ∧
    (after (start [] []) 0x60000084).diagUnk = true ∧ (after (start [] []) 0x60000084).diagRaw = 0x84 := by decide
/-- P5, steps 9 to 11: a known status leaves the record. -/
theorem test_stdec_known : (after { start [] [] with diagUnk := true, diagRaw := 0x6A } 0x60000055).diagRaw = 0x6A ∧
    (after { start [] [] with diagUnk := true, diagRaw := 0x6A } 0x60000055).diagUnk = true := by decide
/-- Y2, Y3. -/
theorem test_strdy : answerTo (start [] []) 0x70000940 = some { err := .ok, count := 64 } ∧
    answerTo (start [] []) 0x70000969 = some { err := .ok, count := 41 } := by decide
/-- Y4, Y11. -/
theorem test_strdy_ill_formed : answerTo (start [] []) 0x7000096A = some { err := .invalidArgument } ∧
    answerTo (start [] []) 0x70000B00 = some { err := .invalidArgument } := by decide
/-- P4, steps 52 to 55: the query overwrites addresses 3 and 4 and leaves address 5. -/
theorem test_fbq : (after (start [1, 2, 3, 0x10, 0x11, 0x12] []) 0x80000000).bytes .tx 0 6 =
      [0x01, 0x00, 0x00, 0x00, 0x00, 0x12] ∧ (after (start [] []) 0x80000000).txlen = 5 := by decide
/-- B1, P2 step 4. -/
theorem test_fbx : answerTo (start [0, 0, 0, 0xAA, 0xBB] []) 0x91F00200 =
      some { err := .ok, txlen := 6, ptype := 0x82, clamped := false } ∧
    (after (start [0, 0, 0, 0xAA, 0xBB] []) 0x91F00200).bytes .tx 0 6 = [0x01, 0xF0, 0x82, 0xAA, 0xBB, 0x3C] := by decide
/-- B10 to B15: the length saturates. -/
theorem test_fbx_clamps : answerTo (start [] []) 0x91F02400 =
      some { err := .ok, txlen := 39, ptype := 0xA3, clamped := true } ∧
    answerTo (start [] []) 0x91F02300 = some { err := .ok, txlen := 39, ptype := 0xA3, clamped := false } ∧
    answerTo (start [] []) 0x90F08000 = some { err := .ok, txlen := 39, ptype := 0x23, clamped := true } := by decide
/-- P1, step 10. -/
theorem test_fpq : answerTo (start [] [0x00, 0x3F]) 0xA0000000 = some { err := .ok, status := 0x23F } := by decide
/-- P5, steps 4 to 6. -/
theorem test_fpq_unknown : answerTo (start [] [0x00, 0x6A]) 0xA0000000 = some { err := .ok, status := 0xA6A } ∧
    (after (start [] [0x00, 0x6A]) 0xA0000000).diagRaw = 0x6A := by decide
/-- X1, X4, X7. -/
theorem test_fpx : answerTo (start [] [0x00, 0x00, 0x11, 0x22, 0x33, 0x5C]) 0xB0000303 = some { err := .ok, off := 2, n := 3 } ∧
    answerTo (start [] [0x9A, 0x9B, 0xAA, 0xBB, 0xCC]) 0xB0000282 = some { err := .ok, off := 0, n := 4 } ∧
    answerTo (start [] [0x12, 0x34, 0xDF]) 0xB0000080 = some { err := .ok, off := 0, n := 2 } := by decide
/-- X3, X14. -/
theorem test_fpx_errors :
    answerTo (start [] [0x00, 0x00, 0x11, 0x22, 0x33, 0x5C]) 0xB0000383 = some { err := .checksumMismatch, off := 0, n := 4 } ∧
    answerTo (start [] []) 0xB0003E3D = some { err := .invalidArgument } := by decide
/-- H1. -/
theorem test_reserved_0 : answerTo (start [] []) 0x00000000 = some { err := .illegalRequest } := by decide
/-- H4, H14. -/
theorem test_reserved_C_F : answerTo (start [] []) 0xFFFFFFFF = some { err := .illegalRequest } ∧
    answerTo (start [] []) 0xC0003E00 = some { err := .illegalRequest } := by decide
/-- H6, H15: an illegal word before an operand out of range. -/
theorem test_priority : answerTo (start [] []) 0x10400001 = some { err := .illegalRequest } ∧
    answerTo (start [] []) 0xB2003E00 = some { err := .illegalRequest } := by decide

/-! ## Witnesses: concrete values that meet the hypotheses of each statement, at a boundary value for each clause -/

/-- A state with a pending request word. -/
def pending (w : Word) : State := (start [] []).issue w

/-- The same in a configuration that is not legal. -/
def pendingIllegal (w : Word) : State := (State.resetWith (cfgPay 61) [] []).issue w

/-- A state with a pending assertion of reset. -/
def pendingReset (c : Cfg) : State := { start [1] [] with inputs := [.reset c [7] [8], .request 0] }

theorem witness_DecodeOfEncodeIsTheInstruction : (Instr.reservedCF 0xC 0).wf = true ∧ (Instr.hwr .rx 255 255).wf = true ∧
    (Instr.strdy 15 255).wf = true := by decide

theorem witness_EncodeOfDecodeIsTheWord : decode 0x51FFFFFF = .ok (.csrx .rx 255 255 255) ∧
    decode 0xFFFFFFFF = .ok (.reservedCF 0xF 0xFFFFFFF) := by decide

/-- Both directions: a row whose word decodes to it, and one that holds of the word. -/
theorem witness_DecodeFollowsMatchAndMask :
    ({ name := "CSRX", pattern := 0x50000000, mask := 0xFE000000 } : OpRow) ∈ operationRows ++ reservedRows ∧
    decode 0x51FFFFFF = .ok (.csrx .rx 255 255 255) ∧ mnemonic (.csrx .rx 255 255 255) = "CSRX" ∧
    ({ name := "CSRX", pattern := 0x50000000, mask := 0xFE000000 } : OpRow).holds 0x51FFFFFF = true := by decide

theorem witness_TableRowsAreDisjoint :
    ({ name := "RESERVED_C_F", pattern := 0xC0000000, mask := 0xC0000000 } : OpRow) ∈ operationRows ++ reservedRows ∧
    ({ name := "RESERVED_C_F", pattern := 0xC0000000, mask := 0xC0000000 } : OpRow).holds 0xC0000000 = true := by decide

theorem witness_StepPerformsTheDecodedRequest : (pending 0x91F0FF00).inputs = [.request 0x91F0FF00] ∧
    (pending 0x91F0FF00).cfg.wf = true ∧ decode 0x91F0FF00 = .ok (.fbx true 0xF0 255) := by decide

/-- A word of a row, one of a reserved code and one with a must-be-zero bit set. -/
theorem witness_IllegalRequestExactlyOutsideTheElevenRows : (pending 0x12000000).inputs = [.request 0x12000000] ∧
    (pending 0x12000000).cfg.wf = true ∧ (∀ row ∈ operationRows, row.holds 0x12000000 = false) ∧
    (∀ row ∈ operationRows, row.holds 0xC0000000 = false) ∧ ¬ (∀ row ∈ operationRows, row.holds 0x80000000 = false) := by
  decide

theorem witness_EveryRequestGetsOneResponse : (pending 0xFFFFFFFF).inputs = [.request 0xFFFFFFFF] ∧
    (pending 0xFFFFFFFF).cfg.wf = true := by decide

/-- A refused request, and a refused reset in a legal configuration. -/
theorem witness_NoStepStopsTheBlock : step (pendingIllegal 0x80000000) = .refused .illFormedConfiguration ∧
    (pendingIllegal 0x80000000).cfg.wf = false ∧
    step (pendingReset (cfgSpi 192)) = .refused .illFormedConfiguration ∧ (pendingReset (cfgSpi 192)).cfg.wf = true :=
  ⟨rfl, by decide, rfl, by decide⟩

theorem witness_IdleBlockKeepsItsState : (start [] []).inputs = [] := by decide

theorem witness_ErrorResponsesChangeNothing :
    exec (.hwr .tx 64 0) (start [] []) = .next (afterAnswer (start [] []) { err := .invalidArgument }) ∧
    exec (.fpx 0 0) (start [] []) = .next (afterAnswer (start [] []) { err := .checksumMismatch, n := 4 }) :=
  ⟨rfl, rfl⟩

/-- Each operand check on both sides of its bound. -/
theorem witness_InvalidArgumentExactlyOnTheListedOperands : (start [] []).cfg.wf = true ∧
    answer (exec (.hwr .rx 63 0) (start [] [])) ≠ answer (exec (.hwr .rx 64 0) (start [] [])) ∧
    answer (exec (.crrd 5) (start [] [])) ≠ answer (exec (.crrd 6) (start [] [])) ∧
    answer (exec (.cstx .tx 255 255) (start [] [])) = some { err := .invalidArgument } ∧
    answer (exec (.csrx .tx 255 255 0) (start [] [])) = some { err := .invalidArgument } ∧
    answer (exec (.strdy 15 255) (start [] [])) = some { err := .invalidArgument } ∧
    answer (exec (.fpx 61 0) (start [] [])) ≠ answer (exec (.fpx 62 0) (start [] [])) := by decide

theorem witness_ReservedWordsAnswerIllegalRequest : 0xC ≤ (0xC : BitVec 4).toNat ∧ 0xC ≤ (0xF : BitVec 4).toNat := by decide

theorem witness_ChecksumMismatchOnlyFromFpx :
    exec (.fpx 61 0) (start [] []) = .next (afterAnswer (start [] []) { err := .checksumMismatch, n := 4 }) := rfl

/-- Both buffers, at the last address. -/
theorem witness_HwrWritesOneByteAndClearsTxlen : (63 : Byte).toNat ≤ 63 ∧
    (∃ t, exec (.hwr .tx 63 0x55) { start [] [] with txlen := 64 } = .next t ∧ t.txlen = 0 ∧ t.byte .tx 63 = 0x55) ∧
    (∃ t, exec (.hwr .rx 63 0x55) { start [] [] with txlen := 64 } = .next t ∧ t.txlen = 64 ∧ t.byte .rx 63 = 0x55) :=
  ⟨by decide, ⟨_, rfl, by decide⟩, ⟨_, rfl, by decide⟩⟩

theorem witness_HrdReturnsTheByte : (63 : Byte).toNat ≤ 63 ∧ (0 : Byte).toNat ≤ 63 := by decide

theorem witness_CrrdReturnsTheControlRegister : (∀ n : Fin 6, (BitVec.ofNat 8 n.val).toNat ≤ 5) ∧
    (∀ n : Fin 6, (answer (exec (.crrd (BitVec.ofNat 8 n.val))
      { start [] [] with txlen := 64, diagUnk := true, diagRaw := 0xFE })).isSome = true) := by decide

theorem witness_WriteIsVisibleToTheNextRequest : (63 : Byte).toNat ≤ 63 ∧ (0 : Byte).toNat ≤ 63 := by decide

theorem witness_FoldIgnoresOrderAndPairs : ([0xAA, 0xBB] : List Byte).Perm [0xBB, 0xAA] ∧
    ([0x5F, 0x01, 0x5F] : List Byte).count 0x5F % 2 = 0 := by decide

/-- The check byte right and wrong, of an empty window and of the longest that a buffer holds. -/
theorem witness_TransmitAndReceiveSeedsAgree : 0 < ([0xDD] : List Byte).length ∧ verifyRx [0xDD] 0x82 0 = true ∧
    verifyRx [0xDC] 0x82 0 = false ∧ 63 < (List.replicate 63 (0 : Byte) ++ [0x5F]).length ∧
    verifyRx (List.replicate 63 (0 : Byte) ++ [0x5F]) 0x00 63 = true := by decide

theorem witness_ChecksumErrorDetection : ([0xAA, 0xBB] : List Byte).Perm [0xBB, 0xAA] ∧ (0x00 : Byte) ≠ 0xFF := by decide

theorem witness_CstxReturnsTheWindowChecksum : (64 : Byte).toNat + (0 : Byte).toNat ≤ 64 ∧
    (0 : Byte).toNat + (64 : Byte).toNat ≤ 64 := by decide

/-- A window that verifies and one that does not, the check byte at the last address. -/
theorem witness_CsrxReturnsTheWindowCheck : (63 : Byte).toNat + (0 : Byte).toNat ≤ 63 ∧
    answer (exec (.csrx .rx 63 0 0x5F) (start [] [])) = some { err := .ok, ok := true } ∧
    answer (exec (.csrx .rx 63 0 0x00) (start [] [])) = some { err := .ok, ok := false } := by decide

/-- The counts of R86 for the two values, by the table: 0x40 to 0x69 and 0x40 to 0x7F. -/
theorem witness_StatusPartitionCounts : (cfgSpi 41).maxSpiLen = 41 ∧ (cfgSpi 64).maxSpiLen = 64 ∧
    (decodeStatus (cfgSpi 41) 0x69).kind = .dataReady ∧ (decodeStatus (cfgSpi 41) 0x6A).kind = .unknown ∧
    (decodeStatus (cfgSpi 64) 0x7F).kind = .dataReady ∧ (decodeStatus (cfgSpi 64) 0x80).kind = .communicationMode := by decide

/-- Both branches, at the two ends of the range. -/
theorem witness_StdecReturnsTheStatusAndRecordsUnknown : (decodeStatus (start [] []).cfg 0x69).kind ≠ .unknown ∧
    (decodeStatus (start [] []).cfg 0x6A).kind = .unknown := by decide

/-- The boundary code, the last code of the range, a fixed code and an unknown one. -/
theorem witness_StrdyReturnsTheBytesReady : statusBits (decodeStatus (start [] []).cfg 0x40) = (9 : BitVec 4) ++ (0x40 : Byte) ∧
    statusBits (decodeStatus (start [] []).cfg 0x69) = (9 : BitVec 4) ++ (0x69 : Byte) ∧
    statusBits (decodeStatus (start [] []).cfg 0x80) = (4 : BitVec 4) ++ (0x80 : Byte) ∧
    statusBits (decodeStatus (start [] []).cfg 0x6A) = (10 : BitVec 4) ++ (0x6A : Byte) := by decide

theorem witness_PtypePackAndSplit : ptypeLen (packPtype 127 true) = 127 ∧ ptypeLen (packPtype 127 false) = 127 ∧
    ptypeIsWrite (packPtype 0 true) = true := by decide

/-- The largest frame, B16, and a length above the maximum in the configuration that allows no payload, B18. -/
theorem witness_FbxBuildsTheDataExchangeFrame :
    (State.resetWith (cfgPay 60) [] []).cfg.wf = true ∧ (State.resetWith (cfgPay 0) [] []).cfg.wf = true ∧
    (answer (exec (.fbx true 0xF0 60) (State.resetWith (cfgPay 60) [] []))).map Response.txlen = some 64 ∧
    (answer (exec (.fbx true 0xF0 5) (State.resetWith (cfgPay 0) [] []))).map Response.clamped = some true := by decide

theorem witness_BuiltFrameCarriesItsOwnCheck : (cfgPay 60).wf = true ∧
    min 255 (cfgPay 60).maxPayload.toNat ≤ (List.replicate 60 (0x10 : Byte)).length ∧
    min 0 (cfgPay 0).maxPayload.toNat ≤ ([] : List Byte).length := by decide

theorem witness_BuiltFrameVerifiesAsAWindow : (State.resetWith (cfgPay 60) [] []).cfg.wf = true := by decide

theorem witness_FbxIsIdempotent : (State.resetWith (cfgPay 60) [] []).cfg.wf = true := by decide

theorem witness_OverlongBuildIsTheMaximumBuild : (start [] []).cfg.wf = true ∧
    (start [] []).cfg.maxPayload.toNat < (36 : Byte).toNat ∧ (start [] []).cfg.maxPayload.toNat < (255 : Byte).toNat := by decide

/-- The check byte at the last address, right and wrong, for a read and for a write (X11 to X13). -/
theorem witness_FpxAnswersTheParseOfTheResponse : (61 : Byte).toNat ≤ 61 ∧
    parseDataExchange ((start [] ([0xA0, 0xA1] ++ List.replicate 61 0x01 ++ [0x63])).bytes .rx 0 64) 0x3D 61 =
      .ok (List.replicate 61 0x01) ∧
    parseDataExchange ((start [] ([0xA0, 0xA1] ++ List.replicate 61 0x01 ++ [0x63])).bytes .rx 0 64) 0xBD 61 =
      .checksumMismatch [0xA0, 0xA1, 0x01, 0x01] := by decide

theorem witness_FpxSliceByCheckAndDirection : (61 : Byte).toNat ≤ 61 ∧
    answer (exec (.fpx 61 0x3D) (start [] ([0xA0, 0xA1] ++ List.replicate 61 0x01 ++ [0x63]))) =
      some { err := .ok, off := 2, n := 61 } ∧
    answer (exec (.fpx 61 0xBD) (start [] ([0xA0, 0xA1] ++ List.replicate 61 0x01 ++ [0xE3]))) =
      some { err := .ok, off := 0, n := 63 } ∧
    answer (exec (.fpx 61 0xBD) (start [] ([0xA0, 0xA1] ++ List.replicate 61 0x01 ++ [0x63]))) =
      some { err := .checksumMismatch, off := 0, n := 4 } := by decide

theorem witness_FpxSucceedsExactlyWhenCsrxDoes : (61 : Byte).toNat ≤ 61 ∧ (0 : Byte).toNat ≤ 61 := by decide

theorem witness_OnlyHwrWritesTheResponseBuffer :
    (∃ t, exec .fbq (start [] [1]) = .next t) ∧ (∀ addr data, Instr.fbq ≠ .hwr .rx addr data) :=
  ⟨⟨_, rfl⟩, fun _ _ h => by cases h⟩

/-- A builder, and an operation that leaves a valid frame as it was. -/
theorem witness_OnlyBuildersMakeAFrameValid : (∃ t, exec .fbq (start [] []) = .next t ∧ t.txlen ≠ 0) ∧
    (∃ t, exec (.hrd .tx 0) { start [0x01] [] with txlen := 5 } = .next t ∧ t.txlen ≠ 0) :=
  ⟨⟨_, rfl, by decide⟩, ⟨_, rfl, by decide⟩⟩

/-- Each of the eight operations. -/
theorem witness_ReadingOperationsWriteNoState :
    (∃ t, exec (.hrd .tx 63) (start [] []) = .next t) ∧ (∃ t, exec (.crrd 5) (start [] []) = .next t) ∧
    (∃ t, exec (.cstx .tx 0 64) (start [] []) = .next t) ∧ (∃ t, exec (.csrx .rx 0 63 0) (start [] []) = .next t) ∧
    (∃ t, exec (.strdy 9 0x69) (start [] []) = .next t) ∧ (∃ t, exec (.fpx 61 0) (start [] []) = .next t) ∧
    (∃ t, exec (.reserved0 0) (start [] []) = .next t) ∧ (∃ t, exec (.reservedCF 0xF 0) (start [] []) = .next t) :=
  ⟨⟨_, rfl⟩, ⟨_, rfl⟩, ⟨_, rfl⟩, ⟨_, rfl⟩, ⟨_, rfl⟩, ⟨_, rfl⟩, ⟨_, rfl⟩, ⟨_, rfl⟩⟩

/-- A request, and a reset with another configuration. -/
theorem witness_ConfigurationIsHeldUntilReset : (∃ t, step (pending 0x80000000) = .next t ∧ t.cfg = standardCfg) ∧
    (∃ t, step (pendingReset (cfgSpi 191)) = .next t ∧ t.cfg = cfgSpi 191) :=
  ⟨⟨_, rfl, by decide⟩, ⟨_, rfl, by decide⟩⟩

/-- An unknown status, a known one, and an operation that decodes none. -/
theorem witness_DiagnosticRecordsTheLatestUnknown :
    (∃ t, exec (.stdec 0x6A) (start [] []) = .next t ∧ t.diagUnk = true) ∧
    (∃ t, exec .fpq { start [] [0x00, 0x69] with diagRaw := 0x84 } = .next t ∧ t.diagRaw = 0x84) ∧
    recordedRaw (start [] []) (.strdy 10 0x6A) = none ∧ (∃ t, exec (.strdy 10 0x6A) (start [] []) = .next t) :=
  ⟨⟨_, rfl, by decide⟩, ⟨_, rfl, by decide⟩, by decide, ⟨_, rfl⟩⟩

/-- A request, and a reset. -/
theorem witness_OnlyResetClearsTheDiagnostic :
    (∃ t, step { pending 0x6000003F with diagUnk := true } = .next t ∧ t.diagUnk = true) ∧
    (∃ t, step { pendingReset standardCfg with diagUnk := true } = .next t ∧ t.diagUnk = false) :=
  ⟨⟨_, rfl, by decide⟩, ⟨_, rfl, by decide⟩⟩

theorem witness_DiagnosticInfluencesNoOtherResult : (∃ t, exec (.crrd 3) (start [] []) = .next t) ∧
    (∀ n, Instr.crrd 3 = .crrd n → n ≠ 4 ∧ n ≠ 5) :=
  ⟨⟨_, rfl⟩, fun n h => by cases h; decide⟩

theorem witness_ResetLeavesTheListedValues : (List.replicate 64 (0xEE : Byte)).length = 64 := by decide

/-- A legal configuration at its limits, and each of the two ways to be illegal. -/
theorem witness_ResetFromEveryState :
    (pendingReset { maxPayload := 60, maxSpiLen := 191, fullCount := 255 }).inputs =
      [.reset { maxPayload := 60, maxSpiLen := 191, fullCount := 255 } [7] [8], .request 0] ∧
    (∃ t, step (pendingReset { maxPayload := 60, maxSpiLen := 191, fullCount := 255 }) = .next t) ∧
    step (pendingReset (cfgPay 61)) = .refused .illFormedConfiguration ∧
    step (pendingReset (cfgSpi 192)) = .refused .illFormedConfiguration :=
  ⟨by decide, ⟨_, rfl⟩, rfl, rfl⟩

theorem witness_InvariantHoldsAfterReset : ({ maxPayload := 60, maxSpiLen := 191, fullCount := 0 } : Cfg).wf = true := by decide

/-- A state in which the invariant holds with a valid frame: the one after `FBQ`. -/
theorem invariant_after_query : Inv (after (start [] []) 0x80000000) where
  cfg_wf := by decide
  txbuf_wf := by decide
  rxbuf_wf := by decide
  frame_valid := .inr (.inl (by decide))

/-- A state in which the invariant holds with no frame. -/
theorem invariant_at_start : Inv (start [] []) where
  cfg_wf := by decide
  txbuf_wf := by decide
  rxbuf_wf := by decide
  frame_valid := .inl (by decide)

theorem witness_EveryStepKeepsTheInvariant : Inv (after (start [] []) 0x80000000) ∧
    (∃ t, step (after (start [] []) 0x80000000) = .next t) := ⟨invariant_after_query, ⟨_, rfl⟩⟩

/-- No frame, and a frame. -/
theorem witness_ValidFrameHasALegalLength : Inv (start [] []) ∧ frameToSend (start [] []) = none ∧
    Inv (after (start [] []) 0x80000000) ∧
    frameToSend (after (start [] []) 0x80000000) = some [0x01, 0x00, 0x00, 0x00, 0x00] :=
  ⟨invariant_at_start, by decide, invariant_after_query, by decide⟩

end Sys2Proof.Tests
end

section
/-! SUPPORT and PROOFS, scope: every operation answers once in a legal configuration, and what that says of a step. -/

namespace Sys2Proof.Proofs

open Sys2Proof.Machine Sys2Proof.Laws

/-! ## An operation that answers -/

/-- The outcome is a next state that holds one response more than `s`, the same configuration and the same moves still to
come (R8, R31, R140): neither a fault nor a refusal. What it does to the buffers and registers is left open. -/
def AnswersOnce (s : State) (out : Result) : Prop :=
  ∃ t r, out = .next t ∧ t.cfg = s.cfg ∧ t.inputs = s.inputs ∧ t.responses = r :: s.responses

/-- What is left of an operation answers for the whole, when the part done kept the configuration, the moves and the
responses. -/
theorem AnswersOnce.of_rest {s u : State} {out : Result} (hcfg : u.cfg = s.cfg) (hinputs : u.inputs = s.inputs)
    (hresponses : u.responses = s.responses) (h : AnswersOnce u out) : AnswersOnce s out := by
  obtain ⟨t, r, hout, htc, hti, htr⟩ := h
  exact ⟨t, r, hout, htc.trans hcfg, hti.trans hinputs, htr.trans (by rw [hresponses])⟩

/-! ## The shared operations -/

theorem respond_answersOnce (s : State) (r : Response) : AnswersOnce s (s.respond r) := ⟨_, r, rfl, rfl, rfl, rfl⟩

theorem raise_answersOnce (s : State) (e : Err) : AnswersOnce s (s.raise e) := respond_answersOnce s _

theorem memRead_answersOnce {s : State} {sel : BufSel} {a : Nat} {k : Byte → Result} (ha : a < 64)
    (h : AnswersOnce s (k (s.byte sel a))) : AnswersOnce s (s.memRead sel a k) := by
  rwa [memRead_of_lt s sel a k ha]

theorem memWindow_answersOnce {s : State} {sel : BufSel} {base len : Nat} {k : List Byte → Result}
    (hend : base + len ≤ 64) (h : AnswersOnce s (k (s.bytes sel base len))) :
    AnswersOnce s (s.memWindow sel base len k) := by
  rwa [memWindow_of_le s sel base len k hend]

theorem memWrite_answersOnce {s : State} {sel : BufSel} {a : Nat} {v : Byte} {k : State → Result} (ha : a < 64)
    (h : AnswersOnce (s.setByte sel a v) (k (s.setByte sel a v))) : AnswersOnce s (s.memWrite sel a v k) := by
  rw [memWrite_of_lt s sel a v k ha]
  exact h.of_rest (by simp) (by simp) (by simp)

theorem setTxlen_respond_answersOnce (s : State) (n : Nat) (r : Response) : AnswersOnce s ((s.setTxlen n).respond r) :=
  (respond_answersOnce _ r).of_rest rfl rfl rfl

theorem touchTxlen_respond_answersOnce (s : State) (sel : BufSel) (r : Response) :
    AnswersOnce s ((s.touchTxlen sel).respond r) := by
  cases sel with
  | tx => exact setTxlen_respond_answersOnce s 0 r
  | rx => exact respond_answersOnce s r

theorem respondStatus_answersOnce (s : State) (raw : Byte) : AnswersOnce s (s.respondStatus raw) :=
  (respond_answersOnce _ _).of_rest (by simp) (by simp) (by simp)

/-! ## The operations

Each operand check keeps the accesses after it inside the buffer; `FBX` has no check, and its clamp does (R102). -/

theorem execHwr_answersOnce (sel : BufSel) (addr data : Byte) (s : State) : AnswersOnce s (execHwr sel addr data s) := by
  unfold execHwr
  split
  case isTrue hok =>
    have haddr : addr.toNat ≤ 63 := of_decide_eq_true hok
    exact memWrite_answersOnce (by omega) (touchTxlen_respond_answersOnce _ sel _)
  case isFalse => exact raise_answersOnce s _

theorem execHrd_answersOnce (sel : BufSel) (addr : Byte) (s : State) : AnswersOnce s (execHrd sel addr s) := by
  unfold execHrd
  split
  case isTrue hok =>
    have haddr : addr.toNat ≤ 63 := of_decide_eq_true hok
    exact memRead_answersOnce (by omega) (respond_answersOnce s _)
  case isFalse => exact raise_answersOnce s _

theorem execCrrd_answersOnce (n : Byte) (s : State) : AnswersOnce s (execCrrd n s) := by
  unfold execCrrd
  split
  · exact respond_answersOnce s _
  · exact raise_answersOnce s _

theorem execCstx_answersOnce (sel : BufSel) (base len : Byte) (s : State) : AnswersOnce s (execCstx sel base len s) := by
  unfold execCstx
  split
  case isTrue hok =>
    have hend : base.toNat + len.toNat ≤ 64 := of_decide_eq_true hok
    exact memWindow_answersOnce hend (respond_answersOnce s _)
  case isFalse => exact raise_answersOnce s _

theorem execCsrx_answersOnce (sel : BufSel) (base len ptype : Byte) (s : State) :
    AnswersOnce s (execCsrx sel base len ptype s) := by
  unfold execCsrx
  split
  case isTrue hok =>
    have hend : base.toNat + len.toNat ≤ 63 := of_decide_eq_true hok
    exact memWindow_answersOnce (by omega) (respond_answersOnce s _)
  case isFalse => exact raise_answersOnce s _

theorem execStrdy_answersOnce (kind : BitVec 4) (code : Byte) (s : State) : AnswersOnce s (execStrdy kind code s) := by
  unfold execStrdy
  split
  · exact respond_answersOnce s _
  · exact raise_answersOnce s _

theorem execFbq_answersOnce (s : State) : AnswersOnce s (execFbq s) :=
  memWrite_answersOnce (by decide) <| memWrite_answersOnce (by decide) <| memWrite_answersOnce (by decide) <|
    memWrite_answersOnce (by decide) <| memWrite_answersOnce (by decide) <| setTxlen_respond_answersOnce _ 5 _

/-- In a legal configuration the clamped length is at most 60 (R5, R102), so a frame ends inside `TXBUF`. -/
theorem clampLength_le_of_wf {cfg : Cfg} (hwf : cfg.wf = true) (length : Nat) : clampLength cfg length ≤ 60 := by
  simp only [Cfg.wf, Bool.and_eq_true, decide_eq_true_eq] at hwf
  obtain ⟨⟨hpayload, -⟩, -⟩ := hwf
  exact (Nat.min_le_right _ _).trans hpayload

theorem execFbx_answersOnce (isWrite : Bool) (command length : Byte) (s : State) (hwf : s.cfg.wf = true) :
    AnswersOnce s (execFbx isWrite command length s) := by
  unfold execFbx
  extract_lets lenC ptype clamped
  have hlen : lenC ≤ 60 := clampLength_le_of_wf hwf length.toNat
  exact memWrite_answersOnce (by decide) <| memWrite_answersOnce (by decide) <| memWrite_answersOnce (by decide) <|
    memWindow_answersOnce (by omega) <| memWrite_answersOnce (by omega) <| setTxlen_respond_answersOnce _ _ _

theorem execFpq_answersOnce (s : State) : AnswersOnce s (execFpq s) :=
  memRead_answersOnce (by decide) (respondStatus_answersOnce s _)

theorem execFpx_answersOnce (payloadLength ptype : Byte) (s : State) : AnswersOnce s (execFpx payloadLength ptype s) := by
  unfold execFpx
  split
  case isTrue hok =>
    have hlen : payloadLength.toNat ≤ 61 := of_decide_eq_true hok
    exact memWindow_answersOnce (by omega) (respond_answersOnce s _)
  case isFalse => exact raise_answersOnce s _

/-- Every row of the opcode table answers in a legal configuration; only `FBX` needs it legal. -/
theorem exec_answersOnce (i : Instr) (s : State) (hwf : s.cfg.wf = true) : AnswersOnce s (exec i s) := by
  cases i with
  | hwr sel addr data => exact execHwr_answersOnce sel addr data s
  | hrd sel addr => exact execHrd_answersOnce sel addr s
  | crrd n => exact execCrrd_answersOnce n s
  | cstx sel base len => exact execCstx_answersOnce sel base len s
  | csrx sel base len ptype => exact execCsrx_answersOnce sel base len ptype s
  | stdec raw => exact respondStatus_answersOnce s raw
  | strdy kind code => exact execStrdy_answersOnce kind code s
  | fbq => exact execFbq_answersOnce s
  | fbx isWrite command length => exact execFbx_answersOnce isWrite command length s hwf
  | fpq => exact execFpq_answersOnce s
  | fpx payloadLength ptype => exact execFpx_answersOnce payloadLength ptype s
  | reserved0 rest => exact raise_answersOnce s _
  | reservedCF op rest => exact raise_answersOnce s _

/-! ## A request and a reset -/

theorem perform_answersOnce (s : State) (w : Word) (hwf : s.cfg.wf = true) : AnswersOnce s (s.perform w) := by
  rw [State.perform, if_pos hwf]
  split
  · exact exec_answersOnce _ s hwf
  · exact raise_answersOnce s _

theorem perform_of_not_wf (s : State) (w : Word) (hwf : s.cfg.wf = false) :
    s.perform w = .refused .illFormedConfiguration := if_neg (by simp [hwf])

theorem applyReset_of_wf (s : State) (c : Cfg) (tx rx : List Byte) (hwf : c.wf = true) :
    s.applyReset c tx rx = .next { State.resetWith c tx rx with inputs := s.inputs } := if_pos hwf

theorem applyReset_of_not_wf (s : State) (c : Cfg) (tx rx : List Byte) (hwf : c.wf = false) :
    s.applyReset c tx rx = .refused .illFormedConfiguration := if_neg (by simp [hwf])

/-! ## The step -/

/-- The state holds a configuration that fails R8, or its pending move is a reset with one that does. -/
def IllegalConfigurationMet (s : State) : Prop :=
  s.cfg.wf = false ∨ ∃ c tx rx later, s.inputs = .reset c tx rx :: later ∧ c.wf = false

theorem step_of_idle (s : State) (h : s.inputs = []) : step s = .next s := by
  unfold step
  simp [h]

theorem step_of_request (s : State) (w : Word) (later : List HostMove) (h : s.inputs = .request w :: later) :
    step s = State.perform { s with inputs := later } w := by
  unfold step
  simp [h, State.takeMove]

theorem step_of_reset (s : State) (c : Cfg) (tx rx : List Byte) (later : List HostMove)
    (h : s.inputs = .reset c tx rx :: later) : step s = State.applyReset { s with inputs := later } c tx rx := by
  unfold step
  simp [h, State.takeMove]

/-- A step answers a next state, or an illegal configuration was met and it is refused for that. -/
theorem step_next_or_refused (s : State) :
    (∃ t, step s = .next t) ∨ (step s = .refused .illFormedConfiguration ∧ IllegalConfigurationMet s) := by
  match hin : s.inputs with
  | [] => exact .inl ⟨s, step_of_idle s hin⟩
  | .request w :: later =>
    rw [step_of_request s w later hin]
    cases hwf : s.cfg.wf with
    | true =>
      obtain ⟨t, -, ht, -⟩ := perform_answersOnce { s with inputs := later } w hwf
      exact .inl ⟨t, ht⟩
    | false => exact .inr ⟨perform_of_not_wf _ w hwf, .inl hwf⟩
  | .reset c tx rx :: later =>
    rw [step_of_reset s c tx rx later hin]
    cases hwf : c.wf with
    | true => exact .inl ⟨_, applyReset_of_wf _ c tx rx hwf⟩
    | false => exact .inr ⟨applyReset_of_not_wf _ c tx rx hwf, .inr ⟨c, tx, rx, later, hin, hwf⟩⟩

/-- A request that is performed keeps the configuration. -/
theorem perform_next_cfg {s t : State} {w : Word} (h : s.perform w = .next t) : t.cfg = s.cfg := by
  obtain ⟨hwf, -⟩ := perform_next s t w h
  obtain ⟨t', r, ht', hcfg, -⟩ := perform_answersOnce s w hwf
  cases h.symm.trans ht'
  exact hcfg

/-! ## The statements -/

/-- Settles O9: the two ways a step can end leave no fault, and one cause of a refusal. -/
theorem noStepStopsTheBlock : Obligations.NoStepStopsTheBlock := by
  intro s
  obtain ⟨t, hnext⟩ | ⟨hrefused, hillegal⟩ := step_next_or_refused s
  · simp [hnext]
  · refine ⟨fun f => by simp [hrefused], fun q hq => ?_⟩
    cases hrefused.symm.trans hq
    exact ⟨rfl, hillegal⟩

/-- Settles O45, along the three moves a step can take: none, a request, a reset. -/
theorem configurationIsHeldUntilReset : Obligations.ConfigurationIsHeldUntilReset := by
  intro s t h
  obtain ⟨-, hidle⟩ | ⟨w, later, -, hperform⟩ | ⟨c, tx, rx, later, hin, -, hreset⟩ := step_next s t h
  · exact .inl (by rw [hidle])
  · exact .inl (perform_next_cfg (s := { s with inputs := later }) hperform)
  · exact .inr ⟨c, tx, rx, later, hin, by rw [hreset, resetWith_cfg]⟩

end Sys2Proof.Proofs
end

section
/-! SUPPORT and PROOFS, scope: what one operation does to the state, said once, and what follows of the buffers, the diagnostic
record and the invariant. -/

namespace Sys2Proof.Proofs

open Sys2Proof.Machine Sys2Proof.Laws Sys2Proof.Safety

/-! ## Answering alone -/

section
variable (s : State) (r : Response)

@[simp] theorem afterAnswer_cfg : (afterAnswer s r).cfg = s.cfg := rfl
@[simp] theorem afterAnswer_txbuf : (afterAnswer s r).txbuf = s.txbuf := rfl
@[simp] theorem afterAnswer_txlen : (afterAnswer s r).txlen = s.txlen := rfl
@[simp] theorem afterAnswer_rxbuf : (afterAnswer s r).rxbuf = s.rxbuf := rfl
@[simp] theorem afterAnswer_diagUnk : (afterAnswer s r).diagUnk = s.diagUnk := rfl
@[simp] theorem afterAnswer_diagRaw : (afterAnswer s r).diagRaw = s.diagRaw := rfl

end

theorem byte_tx_congr {s t : State} (h : t.txbuf = s.txbuf) (a : Nat) : t.byte .tx a = s.byte .tx a :=
  congrArg (Memory.read · a) h

theorem byte_rx_congr {s t : State} (h : t.rxbuf = s.rxbuf) (a : Nat) : t.byte .rx a = s.byte .rx a :=
  congrArg (Memory.read · a) h

theorem bytes_tx_congr {s t : State} (h : t.txbuf = s.txbuf) (base len : Nat) :
    t.bytes .tx base len = s.bytes .tx base len := congrArg (Memory.slice · base len) h

/-! ## The frames that the builders write -/

/-- The state with the three bytes before the payload written: marker, command, PTYPE (R114). -/
def withHeader (s : State) (command ptype : Byte) : State :=
  ((s.setByte .tx 0 marker).setByte .tx 1 command).setByte .tx 2 ptype

/-- The state with the status query written (R113). -/
def withQuery (s : State) : State := ((withHeader s cmdStatus 0x00).setByte .tx 3 0x00).setByte .tx 4 0x00

/-- The state with the header and the check written around the `n` payload bytes that stand in `TXBUF` (R114). -/
def withExchange (s : State) (isWrite : Bool) (command : Byte) (n : Nat) : State :=
  (withHeader s command (packPtype n isWrite)).setByte .tx (3 + n)
    (computeTx ((withHeader s command (packPtype n isWrite)).bytes .tx 1 (2 + n)))

theorem setByte_tx_wf {s : State} {a : Nat} (v : Byte) (ha : a < 64) (h : Memory.wf s.txbuf = true) :
    Memory.wf (s.setByte .tx a v).txbuf = true := wf_write _ a v ha h

theorem withHeader_wf {s : State} (command ptype : Byte) (h : Memory.wf s.txbuf = true) :
    Memory.wf (withHeader s command ptype).txbuf = true :=
  setByte_tx_wf _ (by decide) <| setByte_tx_wf _ (by decide) <| setByte_tx_wf _ (by decide) h

theorem withQuery_wf {s : State} (h : Memory.wf s.txbuf = true) : Memory.wf (withQuery s).txbuf = true :=
  setByte_tx_wf _ (by decide) <| setByte_tx_wf _ (by decide) <| withHeader_wf _ _ h

theorem withExchange_wf {s : State} (isWrite : Bool) (command : Byte) {n : Nat} (hn : 3 + n < 64)
    (h : Memory.wf s.txbuf = true) : Memory.wf (withExchange s isWrite command n).txbuf = true :=
  setByte_tx_wf _ hn <| withHeader_wf _ _ h

/-- Every byte of `TXBUF` under a header. -/
theorem byte_withHeader (s : State) (command ptype : Byte) (a : Nat) : (withHeader s command ptype).byte .tx a =
    if a = 2 then ptype else if a = 1 then command else if a = 0 then marker else s.byte .tx a := by
  simp [withHeader, byte_setByte]

/-- A header and what follows it, read from address 1. -/
theorem bytes_withHeader (s : State) (command ptype : Byte) (n : Nat) :
    (withHeader s command ptype).bytes .tx 1 (2 + n) = [command, ptype] ++ s.bytes .tx 3 n := by
  have hpayload : (withHeader s command ptype).bytes .tx 3 n = s.bytes .tx 3 n :=
    bytes_congr _ _ _ _ _ fun a hlo _ => by
      rw [byte_withHeader, if_neg (by omega), if_neg (by omega), if_neg (by omega)]
  rw [show 2 + n = n + 1 + 1 by omega, bytes_cons, bytes_cons, hpayload, byte_withHeader, byte_withHeader]
  rfl

/-- `FBQ` leaves the status query in `TXBUF` (R113). -/
theorem bytes_withQuery (s : State) : (withQuery s).bytes .tx 0 5 = buildStatusQuery := by
  simp only [bytes_cons, withQuery, byte_setByte, byte_withHeader]
  rfl

/-- A length that is at most `MAX_PAYLOAD` is not clamped (R102). -/
theorem clampLength_of_le {cfg : Cfg} {n : Nat} (h : n ≤ cfg.maxPayload.toNat) : clampLength cfg n = n := Nat.min_eq_left h

/-- A payload within the maximum stands whole in the body of its frame (R101). -/
theorem dataExchangeBody_of_le {cfg : Cfg} (command : Byte) {payload : List Byte} (isWrite : Bool)
    (h : payload.length ≤ cfg.maxPayload.toNat) : dataExchangeBody cfg command payload payload.length isWrite =
      [command, packPtype payload.length isWrite] ++ payload := by
  rw [dataExchangeBody, clampLength_of_le h, List.take_length]

/-- `FBX` leaves in `TXBUF` the frame that is built of the payload that stood there (R114). -/
theorem bytes_withExchange (s : State) (isWrite : Bool) (command : Byte) {n : Nat} (hn : n ≤ s.cfg.maxPayload.toNat) :
    (withExchange s isWrite command n).bytes .tx 0 (n + 4) =
      buildDataExchange s.cfg command (s.bytes .tx 3 n) (s.bytes .tx 3 n).length isWrite := by
  have hbefore : (withExchange s isWrite command n).bytes .tx 0 (2 + n + 1) =
      (withHeader s command (packPtype n isWrite)).bytes .tx 0 (2 + n + 1) :=
    bytes_congr _ _ _ _ _ fun a _ hhi => by rw [withExchange, byte_setByte, if_neg (by omega)]
  have hcheck : (withExchange s isWrite command n).byte .tx (0 + (2 + n + 1)) =
      computeTx ([command, packPtype n isWrite] ++ s.bytes .tx 3 n) := by
    rw [withExchange, byte_setByte, if_pos ⟨rfl, by omega⟩, bytes_withHeader]
  have hbody := dataExchangeBody_of_le (cfg := s.cfg) command (payload := s.bytes .tx 3 n) isWrite (by simpa using hn)
  rw [show n + 4 = 2 + n + 1 + 1 by omega, bytes_snoc, hbefore, hcheck, bytes_cons, bytes_withHeader, byte_withHeader,
    buildDataExchange, hbody, length_bytes]
  rfl

/-! ## What an operation that answers can have done -/

/-- The ways in which an operation takes `s` to a next state: it answers and writes nothing, writes one byte, records a decoded
status, or builds a frame. -/
inductive Effect (s : State) : Instr → State → Prop
  /-- Only the response is given: an error, or an operation that states no write (R144). -/
  | answered (i : Instr) (r : Response) (hquiet : recordedRaw s i = none) : Effect s i (afterAnswer s r)
  /-- `HWR` in range (R130). -/
  | wrote (sel : BufSel) (addr data : Byte) (r : Response) (haddr : addr.toNat < 64) :
      Effect s (.hwr sel addr data) (afterAnswer ((s.setByte sel addr.toNat data).touchTxlen sel) r)
  /-- `STDEC` and `FPQ` (R93, R115). -/
  | decoded (i : Instr) (raw : Byte) (r : Response) (hraw : recordedRaw s i = some raw) :
      Effect s i (afterAnswer (s.recordDiagnostic (decodeStatus s.cfg raw)) r)
  /-- `FBQ` (R113). -/
  | builtQuery (r : Response) : Effect s .fbq (afterAnswer ((withQuery s).setTxlen 5) r)
  /-- `FBX` whose frame ends inside `TXBUF` (R114). -/
  | builtExchange (isWrite : Bool) (command length : Byte) (r : Response) (hend : 3 + clampLength s.cfg length.toNat < 64) :
      Effect s (.fbx isWrite command length)
        (afterAnswer ((withExchange s isWrite command (clampLength s.cfg length.toNat)).setTxlen
          (clampLength s.cfg length.toNat + 4)) r)

theorem effect_of_respond {s t : State} {r : Response} {i : Instr} (hquiet : recordedRaw s i = none)
    (h : s.respond r = .next t) : Effect s i t := by
  rw [respond_next s t r h]
  exact .answered i r hquiet

theorem effect_of_raise {s t : State} {e : Err} {i : Instr} (hquiet : recordedRaw s i = none)
    (h : s.raise e = .next t) : Effect s i t := effect_of_respond hquiet h

theorem effect_of_respondStatus {s t : State} {raw : Byte} {i : Instr} (hraw : recordedRaw s i = some raw)
    (h : s.respondStatus raw = .next t) : Effect s i t := by
  rw [respond_next _ t _ h]
  exact .decoded i raw _ hraw

theorem execHwr_effect {sel : BufSel} {addr data : Byte} {s t : State} (h : execHwr sel addr data s = .next t) :
    Effect s (.hwr sel addr data) t := by
  unfold execHwr at h
  split at h
  · obtain ⟨haddr, h⟩ := memWrite_next _ _ _ _ _ _ h
    rw [respond_next _ t _ h]
    exact .wrote sel addr data _ haddr
  · exact effect_of_raise rfl h

theorem execHrd_effect {sel : BufSel} {addr : Byte} {s t : State} (h : execHrd sel addr s = .next t) :
    Effect s (.hrd sel addr) t := by
  unfold execHrd at h
  split at h
  · obtain ⟨-, h⟩ := memRead_next _ _ _ _ _ h
    exact effect_of_respond rfl h
  · exact effect_of_raise rfl h

theorem execCrrd_effect {n : Byte} {s t : State} (h : execCrrd n s = .next t) : Effect s (.crrd n) t := by
  unfold execCrrd at h
  split at h
  · exact effect_of_respond rfl h
  · exact effect_of_raise rfl h

theorem execCstx_effect {sel : BufSel} {base len : Byte} {s t : State} (h : execCstx sel base len s = .next t) :
    Effect s (.cstx sel base len) t := by
  unfold execCstx at h
  split at h
  · obtain ⟨-, h⟩ := memWindow_next _ _ _ _ _ _ h
    exact effect_of_respond rfl h
  · exact effect_of_raise rfl h

theorem execCsrx_effect {sel : BufSel} {base len ptype : Byte} {s t : State}
    (h : execCsrx sel base len ptype s = .next t) : Effect s (.csrx sel base len ptype) t := by
  unfold execCsrx at h
  split at h
  · obtain ⟨-, h⟩ := memWindow_next _ _ _ _ _ _ h
    exact effect_of_respond rfl h
  · exact effect_of_raise rfl h

theorem execStrdy_effect {kind : BitVec 4} {code : Byte} {s t : State} (h : execStrdy kind code s = .next t) :
    Effect s (.strdy kind code) t := by
  unfold execStrdy at h
  split at h
  · exact effect_of_respond rfl h
  · exact effect_of_raise rfl h

theorem execFbq_effect {s t : State} (h : execFbq s = .next t) : Effect s .fbq t := by
  unfold execFbq at h
  obtain ⟨-, h⟩ := memWrite_next _ _ _ _ _ _ h
  obtain ⟨-, h⟩ := memWrite_next _ _ _ _ _ _ h
  obtain ⟨-, h⟩ := memWrite_next _ _ _ _ _ _ h
  obtain ⟨-, h⟩ := memWrite_next _ _ _ _ _ _ h
  obtain ⟨-, h⟩ := memWrite_next _ _ _ _ _ _ h
  rw [respond_next _ t _ h]
  exact .builtQuery _

theorem execFbx_effect {isWrite : Bool} {command length : Byte} {s t : State}
    (h : execFbx isWrite command length s = .next t) : Effect s (.fbx isWrite command length) t := by
  unfold execFbx at h
  obtain ⟨-, h⟩ := memWrite_next _ _ _ _ _ _ h
  obtain ⟨-, h⟩ := memWrite_next _ _ _ _ _ _ h
  obtain ⟨-, h⟩ := memWrite_next _ _ _ _ _ _ h
  obtain ⟨-, h⟩ := memWindow_next _ _ _ _ _ _ h
  obtain ⟨hend, h⟩ := memWrite_next _ _ _ _ _ _ h
  rw [respond_next _ t _ h]
  exact .builtExchange isWrite command length _ hend

theorem execFpq_effect {s t : State} (h : execFpq s = .next t) : Effect s .fpq t := by
  obtain ⟨-, h⟩ := memRead_next _ _ _ _ _ h
  exact effect_of_respondStatus rfl h

theorem execFpx_effect {payloadLength ptype : Byte} {s t : State} (h : execFpx payloadLength ptype s = .next t) :
    Effect s (.fpx payloadLength ptype) t := by
  unfold execFpx at h
  split at h
  · obtain ⟨-, h⟩ := memWindow_next _ _ _ _ _ _ h
    exact effect_of_respond rfl h
  · exact effect_of_raise rfl h

/-- The inversion of `exec`, from which the statements about every instruction are read. -/
theorem exec_effect {i : Instr} {s t : State} (h : exec i s = .next t) : Effect s i t := by
  cases i with
  | hwr sel addr data => exact execHwr_effect h
  | hrd sel addr => exact execHrd_effect h
  | crrd n => exact execCrrd_effect h
  | cstx sel base len => exact execCstx_effect h
  | csrx sel base len ptype => exact execCsrx_effect h
  | stdec raw => exact effect_of_respondStatus rfl h
  | strdy kind code => exact execStrdy_effect h
  | fbq => exact execFbq_effect h
  | fbx isWrite command length => exact execFbx_effect h
  | fpq => exact execFpq_effect h
  | fpx payloadLength ptype => exact execFpx_effect h
  | reserved0 rest => exact effect_of_raise rfl h
  | reservedCF op rest => exact effect_of_raise rfl h

/-! ## What an effect leaves unchanged -/

theorem Effect.rxbuf_eq {s t : State} {i : Instr} (h : Effect s i t) (hi : ∀ addr data, i ≠ .hwr .rx addr data) :
    t.rxbuf = s.rxbuf := by
  cases h with
  | answered => rfl
  | wrote sel addr data =>
    cases sel with
    | tx => rfl
    | rx => exact absurd rfl (hi addr data)
  | decoded i raw => simp
  | builtQuery => rfl
  | builtExchange => rfl

/-- Only a builder leaves a frame that was not there: any other operation clears `TXLEN`, or keeps it and `TXBUF` (R17). -/
theorem Effect.frame_kept_or_cleared {s t : State} {i : Instr} (h : Effect s i t) :
    i = .fbq ∨ (∃ isWrite command length, i = .fbx isWrite command length) ∨
      (t.txlen = s.txlen ∧ t.txbuf = s.txbuf) ∨ t.txlen = 0 := by
  cases h with
  | answered => exact .inr (.inr (.inl ⟨rfl, rfl⟩))
  | wrote sel addr data =>
    cases sel with
    | tx => exact .inr (.inr (.inr rfl))
    | rx => exact .inr (.inr (.inl ⟨rfl, rfl⟩))
  | decoded i raw => exact .inr (.inr (.inl (by simp)))
  | builtQuery => exact .inl rfl
  | builtExchange isWrite command length => exact .inr (.inl ⟨isWrite, command, length, rfl⟩)

/-- What an operation does to the diagnostic record: it records the raw byte that it decodes, if any (R13). -/
theorem Effect.diagnostic {s t : State} {i : Instr} (h : Effect s i t) :
    (recordedRaw s i = none ∧ t.diagUnk = s.diagUnk ∧ t.diagRaw = s.diagRaw) ∨
    (∃ raw, recordedRaw s i = some raw ∧
      t.diagUnk = (decide ((decodeStatus s.cfg raw).kind = .unknown) || s.diagUnk) ∧
      t.diagRaw = if (decodeStatus s.cfg raw).kind = .unknown then raw else s.diagRaw) := by
  cases h with
  | answered i r hquiet => exact .inl ⟨hquiet, rfl, rfl⟩
  | wrote sel addr data => cases sel <;> exact .inl ⟨rfl, rfl, rfl⟩
  | decoded i raw r hraw =>
    exact .inr ⟨raw, hraw, by simp [recordDiagnostic_diagUnk], by simp [recordDiagnostic_diagRaw]⟩
  | builtQuery => exact .inl ⟨rfl, rfl, rfl⟩
  | builtExchange => exact .inl ⟨rfl, rfl, rfl⟩

/-- No operation clears `DIAG.UNK` (R12). -/
theorem Effect.diagUnk_of_set {s t : State} {i : Instr} (h : Effect s i t) (hset : s.diagUnk = true) :
    t.diagUnk = true := by
  obtain ⟨-, hunk, -⟩ | ⟨raw, -, hunk, -⟩ := h.diagnostic
  · rw [hunk, hset]
  · rw [hunk, hset, Bool.or_true]

/-! ## The invariant -/

/-- The invariant reads no other field than these four. -/
theorem inv_congr {s t : State} (h : Inv s) (hcfg : t.cfg = s.cfg) (htx : t.txbuf = s.txbuf) (hlen : t.txlen = s.txlen)
    (hrx : t.rxbuf = s.rxbuf) : Inv t where
  cfg_wf := by rw [hcfg, h.cfg_wf]
  txbuf_wf := by rw [htx, h.txbuf_wf]
  rxbuf_wf := by rw [hrx, h.rxbuf_wf]
  frame_valid := by
    have hframe : txFrame t = txFrame s := by rw [txFrame, txFrame, hlen, bytes_tx_congr htx]
    rw [FrameValid, hlen, hcfg, hframe]
    exact h.frame_valid

/-- A byte written to `TXBUF` clears `TXLEN`; one written to `RXBUF` is outside the frame (R130). -/
theorem inv_wrote {s : State} (h : Inv s) (sel : BufSel) {a : Nat} (data : Byte) (ha : a < 64) :
    Inv ((s.setByte sel a data).touchTxlen sel) := by
  cases sel with
  | tx =>
    exact { cfg_wf := h.cfg_wf, txbuf_wf := setByte_tx_wf data ha h.txbuf_wf, rxbuf_wf := h.rxbuf_wf, frame_valid := .inl rfl }
  | rx =>
    exact { cfg_wf := h.cfg_wf, txbuf_wf := h.txbuf_wf, rxbuf_wf := wf_write _ a data ha h.rxbuf_wf,
            frame_valid := h.frame_valid }

theorem inv_builtQuery {s : State} (h : Inv s) : Inv ((withQuery s).setTxlen 5) where
  cfg_wf := h.cfg_wf
  txbuf_wf := withQuery_wf h.txbuf_wf
  rxbuf_wf := h.rxbuf_wf
  frame_valid := .inr (.inl (bytes_withQuery s))

/-- The 7 bits of `TXLEN` hold the length of the frame whole, since it ends inside the buffer (R17). -/
theorem inv_builtExchange {s : State} (h : Inv s) (isWrite : Bool) (command : Byte) {n : Nat}
    (hmax : n ≤ s.cfg.maxPayload.toNat) (hend : 3 + n < 64) :
    Inv ((withExchange s isWrite command n).setTxlen (n + 4)) where
  cfg_wf := h.cfg_wf
  txbuf_wf := withExchange_wf isWrite command hend h.txbuf_wf
  rxbuf_wf := h.rxbuf_wf
  frame_valid := by
    have hlen : (BitVec.ofNat 7 (n + 4)).toNat = n + 4 := Nat.mod_eq_of_lt (by omega)
    refine .inr (.inr ⟨command, s.bytes .tx 3 n, isWrite, (length_bytes _ _ _ _).trans_le hmax, ?_⟩)
    rw [txFrame, setTxlen_txlen, hlen, setTxlen_bytes]
    exact bytes_withExchange s isWrite command hmax

theorem inv_of_effect {s t : State} {i : Instr} (h : Inv s) (heffect : Effect s i t) : Inv t := by
  cases heffect with
  | answered => exact inv_congr h rfl rfl rfl rfl
  | wrote sel addr data r haddr => exact inv_congr (inv_wrote h sel data haddr) rfl rfl rfl rfl
  | decoded i raw => exact inv_congr h (by simp) (by simp) (by simp) (by simp)
  | builtQuery => exact inv_congr (inv_builtQuery h) rfl rfl rfl rfl
  | builtExchange isWrite command length r hend =>
    exact inv_congr (inv_builtExchange h isWrite command (Nat.min_le_right _ _) hend) rfl rfl rfl rfl

theorem inv_resetWith {c : Cfg} (tx rx : List Byte) (hwf : c.wf = true) : Inv (State.resetWith c tx rx) where
  cfg_wf := hwf
  txbuf_wf := wf_ofDraw tx
  rxbuf_wf := wf_ofDraw rx
  frame_valid := .inl rfl

/-- A request that is performed has an effect; one that decodes to nothing has that of a reserved word (R42). -/
theorem perform_effect {s t : State} {w : Word} (h : s.perform w = .next t) : ∃ i, Effect s i t := by
  obtain ⟨-, ⟨i, -, hexec⟩ | ⟨-, -, hraise⟩⟩ := perform_next s t w h
  · exact ⟨i, exec_effect hexec⟩
  · exact ⟨.reserved0 0, effect_of_raise rfl hraise⟩

/-- Settles O52: idle keeps the state, a request has one of the effects, and reset starts anew. -/
theorem everyStepKeepsTheInvariant : Obligations.EveryStepKeepsTheInvariant := by
  intro s t hinv h
  obtain ⟨-, rfl⟩ | ⟨w, later, -, hperform⟩ | ⟨c, tx, rx, later, -, hwf, rfl⟩ := step_next s t h
  · exact hinv
  · obtain ⟨i, heffect⟩ := perform_effect hperform
    exact inv_of_effect (s := { s with inputs := later }) (inv_congr hinv rfl rfl rfl rfl) heffect
  · exact inv_congr (inv_resetWith tx rx hwf) rfl rfl rfl rfl

/-- Settles O51. -/
theorem invariantHoldsAfterReset : Obligations.InvariantHoldsAfterReset :=
  ⟨fun _ tx rx hwf => inv_resetWith tx rx hwf, inv_resetWith [] [] (by decide)⟩

/-! ## The frame to send -/

theorem fold_snoc (bytes : List Byte) (b : Byte) : fold (bytes ++ [b]) = fold bytes ^^^ b := by
  simp [fold]

/-- Bytes with their checksum after them fold to the seed (R74). -/
theorem fold_snoc_computeTx (bytes : List Byte) : fold (bytes ++ [computeTx bytes]) = seed := by
  rw [fold_snoc, computeTx, BitVec.xor_comm seed, ← BitVec.xor_assoc, BitVec.xor_self, BitVec.zero_xor]

theorem fold_drop_buildDataExchange (cfg : Cfg) (command : Byte) (payload : List Byte) (length : Nat) (isWrite : Bool) :
    fold ((buildDataExchange cfg command payload length isWrite).drop 1) = seed := fold_snoc_computeTx _

/-- Marker, command, PTYPE and check stand around the payload (R104). -/
theorem length_buildDataExchange {cfg : Cfg} (command : Byte) {payload : List Byte} (isWrite : Bool)
    (h : payload.length ≤ cfg.maxPayload.toNat) :
    (buildDataExchange cfg command payload payload.length isWrite).length = payload.length + 4 := by
  rw [buildDataExchange, dataExchangeBody_of_le command isWrite h]
  simp

theorem maxPayload_le_of_wf {cfg : Cfg} (hwf : cfg.wf = true) : cfg.maxPayload.toNat ≤ 60 := by
  simpa [clampLength] using clampLength_le_of_wf hwf cfg.maxPayload.toNat

/-- A built frame has 4 to 64 bytes, and is the query or carries its own check (R104, R117). -/
theorem builtFrame_length_and_check {cfg : Cfg} {frame : List Byte} (hwf : cfg.wf = true) (h : BuiltFrame cfg frame) :
    4 ≤ frame.length ∧ frame.length ≤ 64 ∧
      (frame = buildStatusQuery ∨ (frame.length ≤ cfg.maxPayload.toNat + 4 ∧ fold (frame.drop 1) = seed)) := by
  obtain rfl | ⟨command, payload, isWrite, hpayload, rfl⟩ := h
  · exact ⟨by decide, by decide, .inl rfl⟩
  · have hmax := maxPayload_le_of_wf hwf
    rw [length_buildDataExchange command isWrite hpayload]
    exact ⟨by omega, by omega, .inr ⟨by omega, fold_drop_buildDataExchange _ _ _ _ _⟩⟩

/-- Settles O53, by whether `TXLEN` is 0. -/
theorem validFrameHasALegalLength : Obligations.ValidFrameHasALegalLength := by
  intro s hinv
  by_cases hzero : s.txlen = 0
  · exact .inl ⟨if_pos hzero, hzero⟩
  · have hbuilt : BuiltFrame s.cfg (txFrame s) := hinv.frame_valid.resolve_left hzero
    exact .inr ⟨txFrame s, if_neg hzero, length_bytes _ _ _ _, builtFrame_length_and_check hinv.cfg_wf hbuilt⟩

/-! ## What no operation does -/

/-- Settles O42. -/
theorem onlyHwrWritesTheResponseBuffer : Obligations.OnlyHwrWritesTheResponseBuffer :=
  fun _ _ _ h hi => byte_rx_congr ((exec_effect h).rxbuf_eq hi)

/-- Settles O43. -/
theorem onlyBuildersMakeAFrameValid : Obligations.OnlyBuildersMakeAFrameValid := by
  intro i s t h hne
  obtain hfbq | hfbx | ⟨hlen, hbuf⟩ | hzero := (exec_effect h).frame_kept_or_cleared
  · exact .inl hfbq
  · exact .inr (.inl hfbx)
  · exact .inr (.inr ⟨hlen, byte_tx_congr hbuf⟩)
  · exact absurd hzero hne

/-- Settles O46. -/
theorem diagnosticRecordsTheLatestUnknown : Obligations.DiagnosticRecordsTheLatestUnknown := by
  intro i s t h
  obtain ⟨hnone, hkept⟩ | ⟨raw, hraw, hunk, hdiagRaw⟩ := (exec_effect h).diagnostic
  · simpa only [hnone] using hkept
  · simp only [hraw]
    split
    case isTrue hunknown => exact ⟨by simp [hunk, hunknown], by rw [hdiagRaw, if_pos hunknown]⟩
    case isFalse hknown => exact ⟨by simp [hunk, hknown], by rw [hdiagRaw, if_neg hknown]⟩

/-- Settles O47, along the three moves a step can take. -/
theorem onlyResetClearsTheDiagnostic : Obligations.OnlyResetClearsTheDiagnostic := by
  intro s t h hset
  obtain ⟨-, rfl⟩ | ⟨w, later, -, hperform⟩ | ⟨c, tx, rx, later, hin, -, -⟩ := step_next s t h
  · exact .inl hset
  · obtain ⟨i, heffect⟩ := perform_effect hperform
    exact .inl (heffect.diagUnk_of_set hset)
  · exact .inr ⟨c, tx, rx, later, hin⟩

/-! ## The values after reset -/

/-- A draw of 64 bytes is what the 64 addresses of the buffer then hold (R20). -/
theorem slice_ofDraw {draw : List Byte} (h : draw.length = 64) : Memory.slice (Memory.ofDraw draw) 0 64 = draw := by
  apply List.ext_getElem (by rw [length_slice, h])
  intro i hi hi'
  rw [length_slice] at hi
  have hslice := getElem?_slice (Memory.ofDraw draw) 0 64 i hi
  rw [Nat.zero_add, read_ofDraw draw i hi] at hslice
  simpa [List.getD_eq_getElem?_getD, hi'] using (List.getElem?_eq_some_iff.mp hslice).2

/-- Settles O49. -/
theorem resetLeavesTheListedValues : Obligations.ResetLeavesTheListedValues :=
  fun _ _ _ htx hrx => ⟨rfl, rfl, rfl, rfl, slice_ofDraw htx, slice_ofDraw hrx⟩

end Sys2Proof.Proofs
end

section
/-! SUPPORT and PROOFS, scope: no result but that of `CRRD 4` and `CRRD 5` depends on the diagnostic record. -/

namespace Sys2Proof.Proofs

open Sys2Proof.Machine

/-! ## States that differ in the record only -/

/-- The two states agree on everything but `DIAG.UNK` and `DIAG_RAW`. -/
structure SameButDiagnostic (t u : State) : Prop where
  responses : u.responses = t.responses
  cfg : u.cfg = t.cfg
  txbuf : u.txbuf = t.txbuf
  txlen : u.txlen = t.txlen
  rxbuf : u.rxbuf = t.rxbuf
  inputs : u.inputs = t.inputs

namespace SameButDiagnostic

variable {s u : State} (h : SameButDiagnostic s u)
include h

theorem buf (sel : BufSel) : u.buf sel = s.buf sel := by
  cases sel with
  | tx => exact h.txbuf
  | rx => exact h.rxbuf

theorem byte (sel : BufSel) (a : Nat) : u.byte sel a = s.byte sel a := congrArg (Memory.read · a) (h.buf sel)

theorem bytes (sel : BufSel) (base len : Nat) : u.bytes sel base len = s.bytes sel base len :=
  congrArg (Memory.slice · base len) (h.buf sel)

theorem setTxlen (n : Nat) : SameButDiagnostic (s.setTxlen n) (u.setTxlen n) := { h with txlen := rfl }

theorem setByte (sel : BufSel) (a : Nat) (v : Byte) : SameButDiagnostic (s.setByte sel a v) (u.setByte sel a v) := by
  cases sel with
  | tx => exact { h with txbuf := congrArg (Memory.write · a v) h.txbuf }
  | rx => exact { h with rxbuf := congrArg (Memory.write · a v) h.rxbuf }

theorem touchTxlen (sel : BufSel) : SameButDiagnostic (s.touchTxlen sel) (u.touchTxlen sel) := by
  cases sel with
  | tx => exact h.setTxlen 0
  | rx => exact h

theorem recordDiagnostic (st : ModuleStatus) :
    SameButDiagnostic (s.recordDiagnostic st) (u.recordDiagnostic st) := by
  constructor <;> simp [h.responses, h.cfg, h.txbuf, h.txlen, h.rxbuf, h.inputs]

/-- The control registers but `DIAG` and `DIAG_RAW` are the same. -/
theorem controlRegister {n : Byte} (h4 : n ≠ 4) (h5 : n ≠ 5) : u.controlRegister n = s.controlRegister n := by
  have hn4 : n.toNat ≠ 4 := fun hn => h4 (BitVec.eq_of_toNat_eq hn)
  have hn5 : n.toNat ≠ 5 := fun hn => h5 (BitVec.eq_of_toNat_eq hn)
  unfold State.controlRegister
  rw [h.cfg, h.txlen]
  split
  case h_5 hn => exact absurd hn hn4
  case h_6 hn => exact absurd hn hn5
  all_goals rfl

end SameButDiagnostic

/-! ## Outcomes that differ in the record only -/

/-- When the first outcome is a next state, the second is one too, and they differ in the record only. -/
def Follows (out out' : Result) : Prop := ∀ t, out = .next t → ∃ u, out' = .next u ∧ SameButDiagnostic t u

theorem ite_follows {c : Prop} [Decidable c] {a a' b b' : Result} (hthen : Follows a a') (helse : Follows b b') :
    Follows (if c then a else b) (if c then a' else b') := by
  split
  · exact hthen
  · exact helse

/-- Anything follows a fault, such as that of an access past the end: it is no next state. -/
theorem fault_follows (f : Fault) (out : Result) : Follows (.fault f) out := fun _ h => nomatch h

section
variable {s u : State} (h : SameButDiagnostic s u)
include h

theorem respond_follows (r : Response) : Follows (s.respond r) (u.respond r) := by
  intro t ht
  cases ht
  exact ⟨_, rfl, { h with responses := congrArg (r :: ·) h.responses }⟩

theorem raise_follows (e : Err) : Follows (s.raise e) (u.raise e) := respond_follows h _

theorem memRead_follows (sel : BufSel) (a : Nat) {k k' : Byte → Result} (hk : ∀ v, Follows (k v) (k' v)) :
    Follows (s.memRead sel a k) (u.memRead sel a k') :=
  ite_follows (by rw [h.byte]; exact hk _) (fault_follows _ _)

theorem memWindow_follows (sel : BufSel) (base len : Nat) {k k' : List Byte → Result}
    (hk : ∀ w, Follows (k w) (k' w)) : Follows (s.memWindow sel base len k) (u.memWindow sel base len k') :=
  ite_follows (by rw [h.bytes]; exact hk _) (fault_follows _ _)

theorem memWrite_follows (sel : BufSel) (a : Nat) (v : Byte) {k k' : State → Result}
    (hk : ∀ {s u}, SameButDiagnostic s u → Follows (k s) (k' u)) :
    Follows (s.memWrite sel a v k) (u.memWrite sel a v k') :=
  ite_follows (hk (h.setByte sel a v)) (fault_follows _ _)

theorem respondStatus_follows (raw : Byte) : Follows (s.respondStatus raw) (u.respondStatus raw) := by
  unfold State.respondStatus
  rw [h.cfg]
  exact respond_follows (h.recordDiagnostic _) _

/-! ## The operations -/

theorem execHwr_follows (sel : BufSel) (addr data : Byte) : Follows (execHwr sel addr data s) (execHwr sel addr data u) :=
  ite_follows (memWrite_follows h _ _ _ fun h => respond_follows (h.touchTxlen sel) _) (raise_follows h _)

theorem execHrd_follows (sel : BufSel) (addr : Byte) : Follows (execHrd sel addr s) (execHrd sel addr u) :=
  ite_follows (memRead_follows h _ _ fun _ => respond_follows h _) (raise_follows h _)

theorem execCrrd_follows {n : Byte} (h4 : n ≠ 4) (h5 : n ≠ 5) : Follows (execCrrd n s) (execCrrd n u) := by
  unfold execCrrd
  rw [h.controlRegister h4 h5]
  split
  · exact respond_follows h _
  · exact raise_follows h _

theorem execCstx_follows (sel : BufSel) (base len : Byte) : Follows (execCstx sel base len s) (execCstx sel base len u) :=
  ite_follows (memWindow_follows h _ _ _ fun _ => respond_follows h _) (raise_follows h _)

theorem execCsrx_follows (sel : BufSel) (base len ptype : Byte) :
    Follows (execCsrx sel base len ptype s) (execCsrx sel base len ptype u) :=
  ite_follows (memWindow_follows h _ _ _ fun _ => respond_follows h _) (raise_follows h _)

theorem execStrdy_follows (kind : BitVec 4) (code : Byte) : Follows (execStrdy kind code s) (execStrdy kind code u) := by
  unfold execStrdy
  rw [h.cfg]
  exact ite_follows (respond_follows h _) (raise_follows h _)

theorem execFbq_follows : Follows (execFbq s) (execFbq u) :=
  memWrite_follows h _ _ _ fun h => memWrite_follows h _ _ _ fun h => memWrite_follows h _ _ _ fun h =>
    memWrite_follows h _ _ _ fun h => memWrite_follows h _ _ _ fun h => respond_follows (h.setTxlen 5) _

theorem execFbx_follows (isWrite : Bool) (command length : Byte) :
    Follows (execFbx isWrite command length s) (execFbx isWrite command length u) := by
  unfold execFbx
  rw [h.cfg]
  exact memWrite_follows h _ _ _ fun h => memWrite_follows h _ _ _ fun h => memWrite_follows h _ _ _ fun h =>
    memWindow_follows h _ _ _ fun _ => memWrite_follows h _ _ _ fun h => respond_follows (h.setTxlen _) _

theorem execFpq_follows : Follows (execFpq s) (execFpq u) :=
  memRead_follows h _ _ fun raw => respondStatus_follows h raw

theorem execFpx_follows (payloadLength ptype : Byte) :
    Follows (execFpx payloadLength ptype s) (execFpx payloadLength ptype u) :=
  ite_follows (memWindow_follows h _ _ _ fun _ => respond_follows h _) (raise_follows h _)

/-- Every operation but the two reads of the record answers the same whatever the record holds. -/
theorem exec_follows (i : Instr) (hi : ∀ n, i = .crrd n → n ≠ 4 ∧ n ≠ 5) : Follows (exec i s) (exec i u) := by
  cases i with
  | hwr sel addr data => exact execHwr_follows h sel addr data
  | hrd sel addr => exact execHrd_follows h sel addr
  | crrd n =>
    obtain ⟨h4, h5⟩ := hi n rfl
    exact execCrrd_follows h h4 h5
  | cstx sel base len => exact execCstx_follows h sel base len
  | csrx sel base len ptype => exact execCsrx_follows h sel base len ptype
  | stdec raw => exact respondStatus_follows h raw
  | strdy kind code => exact execStrdy_follows h kind code
  | fbq => exact execFbq_follows h
  | fbx isWrite command length => exact execFbx_follows h isWrite command length
  | fpq => exact execFpq_follows h
  | fpx payloadLength ptype => exact execFpx_follows h payloadLength ptype
  | reserved0 rest => exact raise_follows h _
  | reservedCF op rest => exact raise_follows h _

end

/-- Settles O48: another record is a state that differs in the record only. -/
theorem diagnosticInfluencesNoOtherResult : Obligations.DiagnosticInfluencesNoOtherResult := by
  intro i s t unk raw h hi
  have hsame : SameButDiagnostic s { s with diagUnk := unk, diagRaw := raw } := ⟨rfl, rfl, rfl, rfl, rfl, rfl⟩
  obtain ⟨u, hu, hresponses, hcfg, htxbuf, htxlen, hrxbuf, hinputs⟩ := exec_follows hsame i hi t h
  exact ⟨u, hu, hresponses, hcfg, htxbuf, htxlen, hrxbuf, hinputs⟩

end Sys2Proof.Proofs
end

section
/-! SUPPORT and PROOFS, scope: what a step does with a request that decodes, and what an accepted `HWR` leaves for the `HRD`
after it. -/

namespace Sys2Proof.Proofs

open Sys2Proof.Machine Sys2Proof.Laws Sys2Proof.Safety

/-! ## A request that decodes -/

theorem perform_of_decode (s : State) {w : Word} {i : Instr} (hwf : s.cfg.wf = true) (hw : decode w = .ok i) :
    s.perform w = exec i s := by
  rw [State.perform, if_pos hwf, hw]

/-- Settles O6: the step takes the move, and the legal configuration lets its word be performed. -/
theorem stepPerformsTheDecodedRequest : Obligations.StepPerformsTheDecodedRequest := by
  intro s w later i hin hwf hw
  rw [step_of_request s w later hin]
  exact perform_of_decode _ hwf hw

/-! ## The accesses of `HWR` and `HRD`

An address up to 63 passes the operand check and lies inside the buffer, so each operation is its one access and the answer. -/

theorem byte_touchTxlen (s : State) (sel sel' : BufSel) (a : Nat) : (s.touchTxlen sel).byte sel' a = s.byte sel' a := by
  cases sel with
  | tx => exact setTxlen_byte s 0 sel' a
  | rx => rfl

theorem byte_afterAnswer (s : State) (r : Response) (sel : BufSel) (a : Nat) :
    (afterAnswer s r).byte sel a = s.byte sel a := by
  cases sel with
  | tx => exact byte_tx_congr (afterAnswer_txbuf s r) a
  | rx => exact byte_rx_congr (afterAnswer_rxbuf s r) a

theorem exec_hwr_of_le (s : State) (sel : BufSel) {addr : Byte} (data : Byte) (haddr : addr.toNat ≤ 63) :
    exec (.hwr sel addr data) s =
      .next (afterAnswer ((s.setByte sel addr.toNat data).touchTxlen sel) { err := .ok }) :=
  calc exec (.hwr sel addr data) s
    _ = s.memWrite sel addr.toNat data fun s => (s.touchTxlen sel).respond { err := .ok } :=
      if_pos (decide_eq_true haddr)
    _ = _ := memWrite_of_lt _ _ _ _ _ (Nat.lt_succ_of_le haddr)

theorem exec_hrd_of_le (s : State) (sel : BufSel) {addr : Byte} (haddr : addr.toNat ≤ 63) :
    exec (.hrd sel addr) s = .next (afterAnswer s { err := .ok, data := s.byte sel addr.toNat }) :=
  calc exec (.hrd sel addr) s
    _ = s.memRead sel addr.toNat fun v => s.respond { err := .ok, data := v } := if_pos (decide_eq_true haddr)
    _ = _ := memRead_of_lt _ _ _ _ (Nat.lt_succ_of_le haddr)

/-- Settles O18: after the write, neither the `TXLEN` update nor the answer touches the byte. -/
theorem writeIsVisibleToTheNextRequest : Obligations.WriteIsVisibleToTheNextRequest := by
  intro sel addr data s haddr
  refine ⟨_, _, exec_hwr_of_le s sel data haddr, exec_hrd_of_le _ sel haddr, rfl, ?_⟩
  change (afterAnswer ((s.setByte sel addr.toNat data).touchTxlen sel) _).byte sel addr.toNat = data
  rw [byte_afterAnswer, byte_touchTxlen, byte_setByte, if_pos ⟨rfl, rfl⟩]

end Sys2Proof.Proofs
end

section
/-! SUPPORT and PROOFS, scope: the decoder, the encoder and the opcode table say the same of every request word. -/

namespace Sys2Proof.Proofs

open Sys2Proof.Machine Sys2Proof.Laws Sys2Proof.Safety

/-! ## A word is its fields (R40) -/

/-- A word is the concatenation of its six fields. -/
theorem append_fields (w : Word) :
    (opField w ++ zeroField w ++ fField w ++ aField w ++ bField w ++ cField w : BitVec 32) = w := by
  simp only [opField, zeroField, fField, aField, bField, cField]
  rw [BitVec.extractLsb'_append_extractLsb'_eq_extractLsb' (by decide),
    BitVec.extractLsb'_append_extractLsb'_eq_extractLsb' (by decide),
    BitVec.extractLsb'_append_extractLsb'_eq_extractLsb' (by decide),
    BitVec.extractLsb'_append_extractLsb'_eq_extractLsb' (by decide),
    BitVec.extractLsb'_append_extractLsb'_eq_extractLsb' (by decide)]
  exact BitVec.extractLsb'_eq_self

/-- The word of a reserved row is its op code and its free bits (R43). -/
theorem opField_append_restField (w : Word) : (opField w ++ restField w : BitVec 32) = w := by
  rw [opField, restField, BitVec.extractLsb'_append_extractLsb'_eq_extractLsb' (by decide)]
  exact BitVec.extractLsb'_eq_self

theorem bHighField_append_kindField (w : Word) : (bHighField w ++ kindField w : BitVec 8) = bField w :=
  BitVec.extractLsb'_append_extractLsb'_eq_extractLsb' (by decide)

theorem word_ext_iff (v w : Word) : v = w ↔ opField v = opField w ∧ zeroField v = zeroField w ∧
    fField v = fField w ∧ aField v = aField w ∧ bField v = bField w ∧ cField v = cField w := by
  constructor
  · rintro rfl
    exact ⟨rfl, rfl, rfl, rfl, rfl, rfl⟩
  · rintro ⟨hop, hzero, hf, ha, hb, hc⟩
    rw [← append_fields v, ← append_fields w, hop, hzero, hf, ha, hb, hc]

@[simp] theorem bitOfSel_selOfBit : ∀ f : BitVec 1, bitOfSel (selOfBit f) = f := by decide

@[simp] theorem bitOfDir_dirOfBit : ∀ f : BitVec 1, bitOfDir (dirOfBit f) = f := by decide

/-! ## A row of the table, field by field (R41)

Each row's mask holds a whole field or none of it, but for `STRDY`, which masks the upper half of `b`, and the second reserved
row, which masks the upper half of the op code. -/

/-- A row holds of a word when every field of the word, masked, is the pattern's. The fields of mask and pattern are written
out, for `simp` to evaluate them at a given row. -/
theorem holds_iff (r : OpRow) (w : Word) : r.holds w = true ↔
    opField w &&& r.mask.extractLsb' 28 4 = r.pattern.extractLsb' 28 4 ∧
    zeroField w &&& r.mask.extractLsb' 25 3 = r.pattern.extractLsb' 25 3 ∧
    fField w &&& r.mask.extractLsb' 24 1 = r.pattern.extractLsb' 24 1 ∧
    aField w &&& r.mask.extractLsb' 16 8 = r.pattern.extractLsb' 16 8 ∧
    bField w &&& r.mask.extractLsb' 8 8 = r.pattern.extractLsb' 8 8 ∧
    cField w &&& r.mask.extractLsb' 0 8 = r.pattern.extractLsb' 0 8 := by
  rw [OpRow.holds, beq_iff_eq, word_ext_iff]
  simp only [opField, zeroField, fField, aField, bField, cField, BitVec.extractLsb'_and]

@[simp] theorem and_ones_one (x : BitVec 1) : x &&& 1#1 = x := BitVec.and_allOnes
@[simp] theorem and_ones_three (x : BitVec 3) : x &&& 7#3 = x := BitVec.and_allOnes
@[simp] theorem and_ones_four (x : BitVec 4) : x &&& 15#4 = x := BitVec.and_allOnes
@[simp] theorem and_ones_eight (x : BitVec 8) : x &&& 255#8 = x := BitVec.and_allOnes

@[simp] theorem bField_and_upper_eq_zero_iff (w : Word) : bField w &&& 240#8 = 0#8 ↔ bHighField w = 0#4 := by
  have hsplit : ∀ hi lo : BitVec 4, (hi ++ lo : BitVec 8) &&& 240#8 = 0#8 ↔ hi = 0#4 := by decide
  rw [← bHighField_append_kindField, hsplit]

/-- The op code is one that the row's pattern and mask allow. -/
def opMatches (r : OpRow) (op : BitVec 4) : Bool := op &&& opField r.mask == opField r.pattern

theorem opMatches_of_holds {r : OpRow} {w : Word} (h : r.holds w = true) : opMatches r (opField w) = true :=
  beq_iff_eq.mpr ((holds_iff r w).mp h).1

/-- Every op code is of one row only: a finite fact about the thirteen rows. -/
theorem row_unique_of_opMatches : ∀ op : BitVec 4, ∀ r ∈ operationRows ++ reservedRows,
    ∀ r' ∈ operationRows ++ reservedRows, opMatches r op = true → opMatches r' op = true → r = r' := by decide

theorem row_unique_of_name : ∀ r ∈ operationRows ++ reservedRows, ∀ r' ∈ operationRows ++ reservedRows,
    r.name = r'.name → r = r' := by decide

theorem opMatches_reservedCF : ∀ op : BitVec 4, 0xC ≤ op.toNat → opMatches reservedRows[1] op = true := by decide

/-- Settles O4: both rows allow the op code of the word. -/
theorem tableRowsAreDisjoint : Obligations.TableRowsAreDisjoint :=
  fun w r r' hr hr' h h' => row_unique_of_opMatches (opField w) r hr r' hr' (opMatches_of_holds h) (opMatches_of_holds h')

/-! ## Decoding an encoded instruction -/

theorem decode_of_reservedCF {w : Word} (h : 0xC ≤ (opField w).toNat) :
    decode w = .ok (.reservedCF (opField w) (restField w)) := by
  unfold decode
  split
  case h_13 => rfl
  all_goals omega

/-- Settles O1: the op code selects the row's arm, and every field the row does not use was packed as zero. -/
theorem decodeOfEncodeIsTheInstruction : Obligations.DecodeOfEncodeIsTheInstruction := by
  intro i hwf
  cases i with
  | reserved0 rest => simp [encode, decode, opField_append_rest, restField_append_rest]
  | reservedCF op rest =>
    have hop : 0xC ≤ op.toNat := of_decide_eq_true hwf
    rw [encode, decode_of_reservedCF (by rwa [opField_append_rest]), opField_append_rest, restField_append_rest]
  | _ => simp [encode, decode, requireZero]

/-! ## What decoding a word can give -/

/-- The decoder's outcome agrees with the row: the row holds of the word and the instruction is the row's and encodes to the
word, or the row does not hold and the word is rejected. -/
inductive RowOutcome (r : OpRow) (w : Word) : Except Rejection Instr → Prop
  | decoded (i : Instr) (hholds : r.holds w = true) (hname : mnemonic i = r.name) (hencode : encode i = w)
      (hwf : i.wf = true) : RowOutcome r w (.ok i)
  | rejected (e : Rejection) (hholds : r.holds w = false) : RowOutcome r w (.error e)

/-- The arm of the decoder for an op code is of a row that holds exactly when the fields the arm checks are zero. -/
theorem requireZero_rowOutcome {r : OpRow} {w : Word} {op : BitVec 4} {unusedZero : Bool} {i : Instr}
    (hrow : r ∈ operationRows ++ reservedRows ∧ opMatches r op = true) (hop : (opField w).toNat = op.toNat)
    (hname : mnemonic i = r.name) (hwf : i.wf = true)
    (hholds : opField w = op → (r.holds w = true ↔ zeroField w = 0 ∧ unusedZero = true))
    (hencode : opField w = op → zeroField w = 0 → unusedZero = true → encode i = w) :
    ∃ r ∈ operationRows ++ reservedRows, opMatches r (opField w) = true ∧
      RowOutcome r w (requireZero w unusedZero i) := by
  obtain ⟨hmem, hmatch⟩ := hrow
  obtain rfl := BitVec.eq_of_toNat_eq hop
  refine ⟨r, hmem, hmatch, ?_⟩
  unfold requireZero
  split
  case isTrue hzero => exact .rejected _ (Bool.eq_false_iff.mpr fun h => hzero ((hholds rfl).mp h).1)
  case isFalse hzero =>
    have hzero : zeroField w = 0 := not_not.mp hzero
    split
    case isTrue hunused => exact .decoded i ((hholds rfl).mpr ⟨hzero, hunused⟩) hname (hencode rfl hzero hunused) hwf
    case isFalse hunused => exact .rejected _ (Bool.eq_false_iff.mpr fun h => hunused ((hholds rfl).mp h).2)

/-- Every word is of the row of its op code, or of none. -/
theorem decode_rowOutcome (w : Word) :
    ∃ r ∈ operationRows ++ reservedRows, opMatches r (opField w) = true ∧ RowOutcome r w (decode w) := by
  unfold decode
  split
  case h_1 hop =>
    have hop : opField w = 0 := BitVec.eq_of_toNat_eq hop
    refine ⟨reservedRows[0], by decide, by rw [hop]; decide, .decoded _ ?_ rfl ?_ rfl⟩
    · simp [holds_iff, reservedRows, hop]
    · exact (congrArg (· ++ restField w) hop.symm).trans (opField_append_restField w)
  case h_2 hop =>
    exact requireZero_rowOutcome (r := operationRows[0]) (op := 0x1) (by decide) hop rfl rfl
      (by simp +contextual [holds_iff, operationRows]) (by simp +contextual [encode, word_ext_iff])
  case h_3 hop =>
    exact requireZero_rowOutcome (r := operationRows[1]) (op := 0x2) (by decide) hop rfl rfl
      (by simp +contextual [holds_iff, operationRows]) (by simp +contextual [encode, word_ext_iff])
  case h_4 hop =>
    exact requireZero_rowOutcome (r := operationRows[2]) (op := 0x3) (by decide) hop rfl rfl
      (by simp +contextual [holds_iff, operationRows, and_assoc]) (by simp +contextual [encode, word_ext_iff])
  case h_5 hop =>
    exact requireZero_rowOutcome (r := operationRows[3]) (op := 0x4) (by decide) hop rfl rfl
      (by simp +contextual [holds_iff, operationRows]) (by simp +contextual [encode, word_ext_iff])
  case h_6 hop =>
    exact requireZero_rowOutcome (r := operationRows[4]) (op := 0x5) (by decide) hop rfl rfl
      (by simp +contextual [holds_iff, operationRows]) (by simp +contextual [encode, word_ext_iff])
  case h_7 hop =>
    exact requireZero_rowOutcome (r := operationRows[5]) (op := 0x6) (by decide) hop rfl rfl
      (by simp +contextual [holds_iff, operationRows, and_assoc]) (by simp +contextual [encode, word_ext_iff])
  case h_8 hop =>
    exact requireZero_rowOutcome (r := operationRows[6]) (op := 0x7) (by decide) hop rfl rfl
      (by simp +contextual [holds_iff, operationRows, and_assoc])
      (by simp +contextual [encode, word_ext_iff, ← bHighField_append_kindField])
  case h_9 hop =>
    exact requireZero_rowOutcome (r := operationRows[7]) (op := 0x8) (by decide) hop rfl rfl
      (by simp +contextual [holds_iff, operationRows, and_assoc]) (by simp +contextual [encode, word_ext_iff])
  case h_10 hop =>
    exact requireZero_rowOutcome (r := operationRows[8]) (op := 0x9) (by decide) hop rfl rfl
      (by simp +contextual [holds_iff, operationRows]) (by simp +contextual [encode, word_ext_iff])
  case h_11 hop =>
    exact requireZero_rowOutcome (r := operationRows[9]) (op := 0xA) (by decide) hop rfl rfl
      (by simp +contextual [holds_iff, operationRows, and_assoc]) (by simp +contextual [encode, word_ext_iff])
  case h_12 hop =>
    exact requireZero_rowOutcome (r := operationRows[10]) (op := 0xB) (by decide) hop rfl rfl
      (by simp +contextual [holds_iff, operationRows]) (by simp +contextual [encode, word_ext_iff])
  case h_13 =>
    simp only [imp_false] at *
    have hop : 0xC ≤ (opField w).toNat := by omega
    have hmatch := opMatches_reservedCF _ hop
    refine ⟨reservedRows[1], by decide, hmatch, .decoded _ ?_ rfl (opField_append_restField w) (decide_eq_true hop)⟩
    simpa [holds_iff, opMatches, reservedRows, opField] using hmatch

/-! ## The statements about decoding -/

/-- Settles O2. -/
theorem encodeOfDecodeIsTheWord : Obligations.EncodeOfDecodeIsTheWord := by
  intro w i hi
  obtain ⟨r, -, -, houtcome⟩ := decode_rowOutcome w
  rw [hi] at houtcome
  cases houtcome with
  | decoded _ _ _ hencode hwf => exact ⟨hencode, hwf⟩

/-- Settles O3: the row of the word's outcome is the one row of its op code, and the one row of its instruction's name. -/
theorem decodeFollowsMatchAndMask : Obligations.DecodeFollowsMatchAndMask := by
  intro w r hr
  obtain ⟨r', hr', hmatch, houtcome⟩ := decode_rowOutcome w
  constructor
  · rintro ⟨i, hi, hname⟩
    rw [hi] at houtcome
    cases houtcome with
    | decoded _ hholds hname' => rwa [row_unique_of_name r hr r' hr' (hname.symm.trans hname')]
  · intro hholds
    obtain rfl := row_unique_of_opMatches _ r hr r' hr' (opMatches_of_holds hholds) hmatch
    generalize decode w = out at houtcome
    cases houtcome with
    | decoded i _ hname => exact ⟨i, rfl, hname⟩
    | rejected _ hnot => exact absurd hholds (by simp [hnot])

/-- The instruction is of one of the eleven operations exactly when it is not reserved (R43). -/
theorem exists_operationRow_iff (i : Instr) : (∃ r ∈ operationRows, mnemonic i = r.name) ↔ isReserved i = false := by
  cases i <;> simp [mnemonic, operationRows, isReserved]

/-- No row of the eleven operations holds of a word that is rejected or reserved, and of no other (R42, R43). -/
theorem no_operationRow_holds_iff (w : Word) :
    (∀ r ∈ operationRows, r.holds w = false) ↔ ∀ i, decode w = .ok i → isReserved i = true := by
  have hfollows : ∀ r ∈ operationRows, (∃ i, decode w = .ok i ∧ mnemonic i = r.name) ↔ r.holds w = true :=
    fun r hr => decodeFollowsMatchAndMask w r (List.mem_append_left _ hr)
  constructor
  · intro hnone i hi
    by_contra hreserved
    obtain ⟨r, hr, hname⟩ := (exists_operationRow_iff i).mpr (Bool.eq_false_iff.mpr hreserved)
    simpa [hnone r hr] using (hfollows r hr).mp ⟨i, hi, hname⟩
  · intro hreserved r hr
    by_contra hholds
    obtain ⟨i, hi, hname⟩ := (hfollows r hr).mpr (Bool.not_eq_false _ ▸ hholds)
    simpa [hreserved i hi] using (exists_operationRow_iff i).mp ⟨r, hr, hname⟩

/-- Settles O5. -/
theorem writtenWordsDecodeAsTheSpecSays : Obligations.WrittenWordsDecodeAsTheSpecSays :=
  ⟨rfl, rfl, rfl, rfl, rfl, rfl, rfl⟩

/-- Settles O13: the word is the encoding of the reserved instruction. -/
theorem reservedWordsAnswerIllegalRequest : Obligations.ReservedWordsAnswerIllegalRequest :=
  fun op rest _ => ⟨⟨decodeOfEncodeIsTheInstruction (.reserved0 rest) rfl, rfl⟩,
    fun hop => ⟨decodeOfEncodeIsTheInstruction (.reservedCF op rest) (decide_eq_true hop), rfl⟩⟩

end Sys2Proof.Proofs
end

section
/-! SUPPORT and PROOFS, scope: which operations are performed and which are answered with an error, and what that says of a
request. -/

namespace Sys2Proof.Proofs

open Sys2Proof.Machine Sys2Proof.Laws Sys2Proof.Safety

/-! ## The operations whose operands are accepted (R44)

Each is what its accesses leave and the answer. -/

section
variable (s : State)

theorem exec_crrd_of_some {n v : Byte} (hn : s.controlRegister n = some v) :
    exec (.crrd n) s = .next (afterAnswer s { err := .ok, data := v }) := by
  rw [exec, execCrrd, hn]
  rfl

theorem exec_cstx_of_le (sel : BufSel) {base len : Byte} (hend : base.toNat + len.toNat ≤ 64) :
    exec (.cstx sel base len) s =
      .next (afterAnswer s { err := .ok, csum := computeTx (s.bytes sel base.toNat len.toNat) }) :=
  (if_pos (decide_eq_true hend)).trans (memWindow_of_le _ _ _ _ _ hend)

theorem exec_csrx_of_le (sel : BufSel) {base len : Byte} (ptype : Byte) (hend : base.toNat + len.toNat ≤ 63) :
    exec (.csrx sel base len ptype) s = .next (afterAnswer s
      { err := .ok, ok := verifyRx (s.bytes sel base.toNat (len.toNat + 1)) ptype len.toNat }) :=
  (if_pos (decide_eq_true hend)).trans (memWindow_of_le _ _ _ _ _ (by omega))

theorem exec_strdy_of_statusOk {kind : BitVec 4} {code : Byte} (hok : statusOk s.cfg kind code = true) :
    exec (.strdy kind code) s = .next (afterAnswer s
      { err := .ok, count := BitVec.ofNat 8 (bytesReady s.cfg (decodeStatus s.cfg code)) }) := if_pos hok

theorem exec_fbq : exec .fbq s = .next (afterAnswer ((withQuery s).setTxlen 5) { err := .ok, txlen := 5 }) := rfl

theorem exec_fbx_of_wf (isWrite : Bool) (command length : Byte) (hwf : s.cfg.wf = true) :
    exec (.fbx isWrite command length) s =
      .next (afterAnswer ((withExchange s isWrite command (clampLength s.cfg length.toNat)).setTxlen
          (clampLength s.cfg length.toNat + 4))
        { err := .ok, txlen := BitVec.ofNat 7 (clampLength s.cfg length.toNat + 4),
          ptype := packPtype (clampLength s.cfg length.toNat) isWrite, clamped := wasClamped s.cfg length.toNat }) := by
  have hlen := clampLength_le_of_wf hwf length.toNat
  rw [exec, execFbx, memWrite_of_lt _ _ _ _ _ (by decide), memWrite_of_lt _ _ _ _ _ (by decide),
    memWrite_of_lt _ _ _ _ _ (by decide), memWindow_of_le _ _ _ _ _ (by omega), memWrite_of_lt _ _ _ _ _ (by omega)]
  rfl

theorem exec_stdec (raw : Byte) : exec (.stdec raw) s =
    .next (afterAnswer (s.recordDiagnostic (decodeStatus s.cfg raw))
      { err := .ok, status := statusBits (decodeStatus s.cfg raw) }) := rfl

theorem exec_fpq : exec .fpq s = exec (.stdec (s.byte .rx 1)) s := rfl

theorem exec_fpx_of_le {payloadLength : Byte} (ptype : Byte) (hlen : payloadLength.toNat ≤ 61) :
    exec (.fpx payloadLength ptype) s = .next (afterAnswer s
      (parseSlice (verifyRx (s.bytes .rx 2 (payloadLength.toNat + 1)) ptype payloadLength.toNat)
        payloadLength.toNat ptype)) :=
  (if_pos (decide_eq_true hlen)).trans (memWindow_of_le _ _ _ _ _ (by omega))

end

/-- The control registers are 0 to 5 (R14). -/
theorem controlRegister_isSome_iff (s : State) (n : Byte) : (s.controlRegister n).isSome = true ↔ n.toNat ≤ 5 := by
  unfold State.controlRegister
  split
  case h_7 =>
    simp only [imp_false] at *
    simp only [Option.isSome_none, Bool.false_eq_true, false_iff]
    omega
  all_goals simp [*]

theorem parseSlice_err (good : Bool) (payloadLength : Nat) (ptype : Byte) :
    (parseSlice good payloadLength ptype).err = if good then .ok else .checksumMismatch := by
  unfold parseSlice
  split_ifs <;> rfl

/-! ## The error of an answer -/

/-- The outcome is an answer that is neither `InvalidArgument` nor `IllegalRequest` (R62). -/
def Performed (s : State) (out : Result) : Prop :=
  ∃ t r, out = .next t ∧ t.responses = r :: s.responses ∧ (r.err = .ok ∨ r.err = .checksumMismatch)

theorem performed_of_ok {s u : State} {r : Response} {out : Result} (hout : out = .next (afterAnswer u r))
    (hresponses : u.responses = s.responses) (herr : r.err = .ok) : Performed s out :=
  ⟨_, r, hout, congrArg (r :: ·) hresponses, .inl herr⟩

/-- What an instruction answers: an operand fault of R44, a reserved word (R43), or an operation performed. -/
inductive Verdict (s : State) (i : Instr) : Prop
  | invalid (hbad : operandOutOfRange s.cfg i) (hout : exec i s = s.raise .invalidArgument)
  | illegal (hreserved : isReserved i = true) (hout : exec i s = s.raise .illegalRequest)
  | performed (hgood : ¬ operandOutOfRange s.cfg i) (hop : isReserved i = false) (hout : Performed s (exec i s))

theorem touchTxlen_responses (s : State) (sel : BufSel) : (s.touchTxlen sel).responses = s.responses := by
  cases sel <;> rfl

theorem not_operandOutOfRange_of_isReserved (cfg : Cfg) {i : Instr} (h : isReserved i = true) :
    ¬ operandOutOfRange cfg i := by
  cases i <;> simp_all [isReserved, operandOutOfRange]

theorem strdy_verdict (kind : BitVec 4) (code : Byte) (s : State) : Verdict s (.strdy kind code) := by
  cases hok : statusOk s.cfg kind code with
  | true =>
    exact .performed (not_not.mpr ((statusOk_iff _ _ _).mp hok)) rfl
      (performed_of_ok (exec_strdy_of_statusOk s hok) rfl rfl)
  | false =>
    have hne : statusBits (decodeStatus s.cfg code) ≠ kind ++ code := by simp [← statusOk_iff, hok]
    exact .invalid hne (if_neg (by simp [hok]))

theorem crrd_verdict (n : Byte) (s : State) : Verdict s (.crrd n) := by
  have hregister := controlRegister_isSome_iff s n
  cases hn : s.controlRegister n with
  | some v =>
    have hle : n.toNat ≤ 5 := hregister.mp (by simp [hn])
    exact .performed (Nat.not_lt.mpr hle) rfl (performed_of_ok (exec_crrd_of_some s hn) rfl rfl)
  | none =>
    have hgt : ¬ n.toNat ≤ 5 := fun hle => by simpa [hn] using hregister.mpr hle
    exact .invalid (Nat.not_le.mp hgt) (by rw [exec, execCrrd, hn])

/-- Every operand check is the one of R44; only `FBX` needs the configuration legal. -/
theorem exec_verdict (i : Instr) (s : State) (hwf : s.cfg.wf = true) : Verdict s i := by
  cases i with
  | hwr sel addr data =>
    obtain hbad | hgood := Nat.lt_or_ge 63 addr.toNat
    · exact .invalid hbad (if_neg (by simpa [addressOk] using hbad))
    · exact .performed (Nat.not_lt.mpr hgood) rfl
        (performed_of_ok (exec_hwr_of_le s sel data hgood) (by rw [touchTxlen_responses, setByte_responses]) rfl)
  | hrd sel addr =>
    obtain hbad | hgood := Nat.lt_or_ge 63 addr.toNat
    · exact .invalid hbad (if_neg (by simpa [addressOk] using hbad))
    · exact .performed (Nat.not_lt.mpr hgood) rfl (performed_of_ok (exec_hrd_of_le s sel hgood) rfl rfl)
  | crrd n => exact crrd_verdict n s
  | cstx sel base len =>
    obtain hbad | hgood := Nat.lt_or_ge 64 (base.toNat + len.toNat)
    · exact .invalid hbad (if_neg (by simpa [windowOk] using hbad))
    · exact .performed (Nat.not_lt.mpr hgood) rfl (performed_of_ok (exec_cstx_of_le s sel hgood) rfl rfl)
  | csrx sel base len ptype =>
    obtain hbad | hgood := Nat.lt_or_ge 63 (base.toNat + len.toNat)
    · exact .invalid hbad (if_neg (by simpa [checkedWindowOk] using hbad))
    · exact .performed (Nat.not_lt.mpr hgood) rfl (performed_of_ok (exec_csrx_of_le s sel ptype hgood) rfl rfl)
  | stdec raw => exact .performed id rfl (performed_of_ok (exec_stdec s raw) (recordDiagnostic_responses _ _) rfl)
  | strdy kind code => exact strdy_verdict kind code s
  | fbq => exact .performed id rfl (performed_of_ok (exec_fbq s) rfl rfl)
  | fbx isWrite command length =>
    exact .performed id rfl (performed_of_ok (exec_fbx_of_wf s isWrite command length hwf) rfl rfl)
  | fpq => exact .performed id rfl (performed_of_ok (exec_fpq s) (recordDiagnostic_responses _ _) rfl)
  | fpx payloadLength ptype =>
    obtain hbad | hgood := Nat.lt_or_ge 61 payloadLength.toNat
    · exact .invalid hbad (if_neg (by simpa [payloadLengthOk] using hbad))
    · refine .performed (Nat.not_lt.mpr hgood) rfl ⟨_, _, exec_fpx_of_le s ptype hgood, rfl, ?_⟩
      rw [parseSlice_err]
      split_ifs
      · exact .inl rfl
      · exact .inr rfl
  | reserved0 rest => exact .illegal rfl rfl
  | reservedCF op rest => exact .illegal rfl rfl

/-! ## The statements about errors -/

/-- Settles O12. -/
theorem invalidArgumentExactlyOnTheListedOperands : Obligations.InvalidArgumentExactlyOnTheListedOperands := by
  intro i s hwf
  cases exec_verdict i s hwf with
  | invalid hbad hout => exact ⟨_, _, hout, rfl, iff_of_true rfl hbad, fun _ => ⟨rfl, rfl⟩⟩
  | illegal hreserved hout =>
    exact ⟨_, _, hout, rfl, iff_of_false (by simp) (not_operandOutOfRange_of_isReserved _ hreserved),
      fun h => by simp at h⟩
  | performed hgood _ hout =>
    obtain ⟨t, r, hnext, hresponses, herr⟩ := hout
    have hne : r.err ≠ .invalidArgument := by rintro h; simp [h] at herr
    exact ⟨t, r, hnext, hresponses, iff_of_false hne hgood, fun h => absurd h hne⟩

theorem perform_of_rejected (s : State) {w : Word} {e : Rejection} (hwf : s.cfg.wf = true) (hw : decode w = .error e) :
    s.perform w = s.raise .illegalRequest := by
  rw [State.perform, if_pos hwf, hw]

/-- A request is answered `IllegalRequest` with nothing else done when it decodes to no operation (R42, R43), and with another
code when it decodes to one. -/
theorem perform_illegal_or_not (s : State) (w : Word) (hwf : s.cfg.wf = true) :
    ((∀ i, decode w = .ok i → isReserved i = true) ∧ s.perform w = s.raise .illegalRequest) ∨
    ((∃ i, decode w = .ok i ∧ isReserved i = false) ∧
      ∃ t r, s.perform w = .next t ∧ t.responses = r :: s.responses ∧ r.err ≠ .illegalRequest) := by
  cases hw : decode w with
  | error e => exact .inl ⟨fun i hi => (nomatch hi), perform_of_rejected s hwf hw⟩
  | ok i =>
    rw [perform_of_decode s hwf hw]
    cases exec_verdict i s hwf with
    | invalid hbad hout =>
      have hop : isReserved i = false :=
        Bool.eq_false_iff.mpr fun h => not_operandOutOfRange_of_isReserved _ h hbad
      exact .inr ⟨⟨i, rfl, hop⟩, _, _, hout, rfl, by simp⟩
    | illegal hreserved hout => exact .inl ⟨fun j hj => by cases hj; exact hreserved, hout⟩
    | performed _ hop hout =>
      obtain ⟨t, r, hnext, hresponses, herr⟩ := hout
      exact .inr ⟨⟨i, rfl, hop⟩, t, r, hnext, hresponses, by rintro h; simp [h] at herr⟩

/-- Settles O7: the words that decode to no operation are those that match no row of the eleven. -/
theorem illegalRequestExactlyOutsideTheElevenRows : Obligations.IllegalRequestExactlyOutsideTheElevenRows := by
  intro s w later hin hwf
  rw [step_of_request s w later hin]
  simp only [no_operationRow_holds_iff]
  obtain ⟨hnone, hout⟩ | ⟨⟨i, hi, hop⟩, t, r, hout, hresponses, herr⟩ :=
    perform_illegal_or_not { s with inputs := later } w hwf
  · exact ⟨_, _, hout, rfl, iff_of_true rfl hnone, fun _ => ⟨rfl, rfl⟩⟩
  · exact ⟨t, r, hout, hresponses, iff_of_false herr fun h => by simp [h i hi] at hop, fun h => absurd h herr⟩

/-! ## The status operand -/

/-- `STRDY` answers OK to the kind that decoding the code gives, and to no other (R59). -/
theorem exec_strdy_ok_iff (kind : BitVec 4) (code : Byte) (s : State) :
    (∃ r, exec (.strdy kind code) s = .next (afterAnswer s r) ∧ r.err = .ok) ↔
      kind = kindNumber (decodeStatus s.cfg code).kind := by
  rw [← beq_iff_eq, ← statusOk]
  constructor
  · rintro ⟨r, hout, herr⟩
    by_contra hnot
    rw [exec, execStrdy, if_neg hnot] at hout
    cases hout
    simp at herr
  · exact fun hok => ⟨_, exec_strdy_of_statusOk s hok, rfl⟩

/-- Settles O30. -/
theorem oneKindIsWellFormedForEachCode : Obligations.OneKindIsWellFormedForEachCode :=
  fun code s => ⟨_, (exec_strdy_ok_iff _ code s).mpr rfl, fun kind h => (exec_strdy_ok_iff kind code s).mp h⟩

end Sys2Proof.Proofs
end

section
/-! SUPPORT and PROOFS, scope: the PTYPE byte is its write bit and its seven length bits. -/

namespace Sys2Proof.Proofs

open Sys2Proof.Machine

/-! ## The two masks part the byte (R4) -/

theorem and_writeBit (p : Byte) : p &&& writeBit = if ptypeIsWrite p then writeBit else 0 :=
  BitVec.and_twoPow p 7

theorem and_lenMask_or_and_writeBit (p : Byte) : p &&& lenMask ||| p &&& writeBit = p := by
  rw [← BitVec.and_or_distrib_left, show lenMask ||| writeBit = BitVec.allOnes 8 from rfl, BitVec.and_allOnes]

/-- `LEN(p)` as a number (R52). -/
theorem ptypeLen_eq_mod (p : Byte) : ptypeLen p = p.toNat % 128 := by
  rw [ptypeLen, BitVec.toNat_and]
  exact Nat.and_two_pow_sub_one_eq_mod p.toNat 7

theorem ptypeLen_le (p : Byte) : ptypeLen p ≤ 127 := by
  rw [ptypeLen_eq_mod]
  omega

theorem ofNat_ptypeLen (p : Byte) : BitVec.ofNat 8 (ptypeLen p) = p &&& lenMask := by
  rw [ptypeLen, BitVec.ofNat_toNat, BitVec.setWidth_eq]

/-- A length up to 127 fits the mask whole. -/
theorem ptypeLen_ofNat {l : Nat} (hl : l ≤ 127) : ptypeLen (BitVec.ofNat 8 l) = l := by
  rw [ptypeLen_eq_mod, BitVec.toNat_ofNat]
  omega

/-- For a length up to 127 the two lines of R51 set the write bit or leave it clear, beside the same length bits. -/
theorem packPtype_eq_or {l : Nat} (hl : l ≤ 127) (w : Bool) :
    packPtype l w = BitVec.ofNat 8 l &&& lenMask ||| if w then writeBit else 0 := by
  have hfits : BitVec.ofNat 8 l &&& lenMask = BitVec.ofNat 8 l := by rw [← ofNat_ptypeLen, ptypeLen_ofNat hl]
  cases w with
  | true => rw [hfits]; rfl
  | false => exact BitVec.or_zero.symm

/-! ## Splitting and packing (R52) -/

theorem packPtype_split (p : Byte) : packPtype (ptypeLen p) (ptypeIsWrite p) = p := by
  rw [packPtype_eq_or (ptypeLen_le p), ofNat_ptypeLen, BitVec.and_assoc, BitVec.and_self, ← and_writeBit,
    and_lenMask_or_and_writeBit]

theorem ptypeIsWrite_packPtype {l : Nat} (hl : l ≤ 127) (w : Bool) : ptypeIsWrite (packPtype l w) = w := by
  rw [packPtype_eq_or hl, ptypeIsWrite, BitVec.getLsbD_or, BitVec.getLsbD_and,
    show lenMask.getLsbD 7 = false from rfl, Bool.and_false, Bool.false_or]
  cases w <;> rfl

theorem ptypeLen_packPtype {l : Nat} (hl : l ≤ 127) (w : Bool) : ptypeLen (packPtype l w) = l := by
  have hmask : (if w then writeBit else 0) &&& lenMask = 0#8 := by cases w <;> rfl
  have hlen : packPtype l w &&& lenMask = BitVec.ofNat 8 l &&& lenMask := by
    rw [packPtype_eq_or hl, BitVec.and_or_distrib_right, hmask, BitVec.or_zero, BitVec.and_assoc, BitVec.and_self]
  rw [ptypeLen, hlen, ← ptypeLen, ptypeLen_ofNat hl]

/-- Settles O31. -/
theorem ptypePackAndSplit : Obligations.PtypePackAndSplit :=
  ⟨fun p => ⟨rfl, ptypeLen_eq_mod p, packPtype_split p⟩,
    fun _ w hl => ⟨ptypeIsWrite_packPtype hl w, ptypeLen_packPtype hl w⟩⟩

end Sys2Proof.Proofs
end

section
/-! SUPPORT and PROOFS, scope: the laws of `fold`, `computeTx` and `verifyRx`, and what `CSTX` and `CSRX` answer of a window. -/

namespace Sys2Proof.Proofs

open Sys2Proof.Machine Sys2Proof.Laws

/-! ## `fold` (R70) -/

theorem fold_append (a b : List Byte) : fold (a ++ b) = fold a ^^^ fold b := by
  calc fold (a ++ b)
    _ = b.foldl (· ^^^ ·) (fold a) := List.foldl_append
    _ = b.foldl (· ^^^ ·) (fold a ^^^ 0x00) := by rw [xor_zero]
    _ = fold a ^^^ fold b := List.foldl_assoc

theorem fold_singleton (b : Byte) : fold [b] = b := BitVec.zero_xor

theorem fold_cons (b : Byte) (bytes : List Byte) : fold (b :: bytes) = b ^^^ fold bytes := by
  rw [← List.singleton_append, fold_append, fold_singleton]

theorem fold_perm {a b : List Byte} (h : a.Perm b) : fold a = fold b := h.foldl_eq 0

/-- A byte folded in an even number of times cancels itself in pairs. -/
theorem fold_replicate_two_mul (k : Nat) (b : Byte) : fold (List.replicate (2 * k) b) = 0x00 := by
  induction k with
  | zero => rfl
  | succ k ih =>
    rw [Nat.mul_succ, List.replicate_succ, List.replicate_succ, fold_cons, fold_cons, xor_cancel_left, ih]

/-- The bytes equal to `b` fold apart from the others, since the order does not matter. -/
theorem fold_eq_replicate_xor_filter (bytes : List Byte) (b : Byte) :
    fold bytes = fold (List.replicate (bytes.count b) b) ^^^ fold (bytes.filter fun x => x ≠ b) := by
  have hparts := List.filter_append_perm (fun x => decide (x = b)) bytes
  rw [← fold_perm hparts, fold_append, List.filter_eq]
  simp only [ne_eq, decide_not]

/-- Settles O19: an even number of `b`s folds to 0x00, which leaves the fold of the others. -/
theorem foldIgnoresOrderAndPairs : Obligations.FoldIgnoresOrderAndPairs := by
  refine ⟨rfl, fold_snoc, fun _ _ => fold_perm, fun bytes b heven => ?_⟩
  obtain ⟨k, hk⟩ := Nat.dvd_of_mod_eq_zero heven
  rw [fold_eq_replicate_xor_filter bytes b, hk, fold_replicate_two_mul, zero_xor]

/-! ## `computeTx` (R71, R75) -/

theorem computeTx_append (a b : List Byte) : computeTx (a ++ b) = computeTx a ^^^ fold b := by
  rw [computeTx, computeTx, fold_append, BitVec.xor_assoc]

theorem computeTx_cons (b : Byte) (bytes : List Byte) : computeTx (b :: bytes) = seed ^^^ b ^^^ fold bytes := by
  rw [computeTx, fold_cons, BitVec.xor_assoc]

theorem computeTx_perm {a b : List Byte} (h : a.Perm b) : computeTx a = computeTx b :=
  congrArg (seed ^^^ ·) (fold_perm h)

/-- A difference in one byte is the same difference in the checksum. -/
theorem computeTx_byte_xor (a b : List Byte) (x d : Byte) :
    computeTx (a ++ [x ^^^ d] ++ b) = computeTx (a ++ [x] ++ b) ^^^ d := by
  simp only [computeTx_append, fold_singleton]
  ac_rfl

theorem computeTx_replace_byte (a b : List Byte) (x y : Byte) :
    computeTx (a ++ [y] ++ b) = computeTx (a ++ [x] ++ b) ^^^ (x ^^^ y) := by
  rw [← computeTx_byte_xor, xor_cancel_left]

/-- Equal checksums would make the difference of the two bytes 0. -/
theorem computeTx_replace_byte_ne (a b : List Byte) {x y : Byte} (hne : x ≠ y) :
    computeTx (a ++ [y] ++ b) ≠ computeTx (a ++ [x] ++ b) := by
  intro hsame
  rw [computeTx_replace_byte a b x y] at hsame
  have hzero : x ^^^ y = 0x00 := (BitVec.xor_right_inj _).mp (hsame.trans (xor_zero _).symm)
  exact hne (BitVec.xor_eq_zero_iff.mp hzero)

/-- The same difference in two bytes cancels (R75). -/
theorem computeTx_two_bytes_xor (a b c : List Byte) (x y d : Byte) :
    computeTx (a ++ [x ^^^ d] ++ b ++ [y ^^^ d] ++ c) = computeTx (a ++ [x] ++ b ++ [y] ++ c) := by
  have hfirst := computeTx_byte_xor a (b ++ [y] ++ c) x d
  simp only [← List.append_assoc] at hfirst
  rw [computeTx_byte_xor, hfirst, xor_cancel_right]

/-! ## `verifyRx` (R72) -/

theorem verifyRx_iff (bytes : List Byte) (ptype : Byte) (len : Nat) :
    verifyRx bytes ptype len = true ↔ bytes[len]? = some (seed ^^^ ptype ^^^ fold (bytes.take len)) := beq_iff_eq

/-- The check byte stands right after the bytes that it checks. -/
theorem verifyRx_snoc_iff (bytes : List Byte) (ptype x : Byte) :
    verifyRx (bytes ++ [x]) ptype bytes.length = true ↔ x = seed ^^^ ptype ^^^ fold bytes := by
  rw [verifyRx_iff, List.getElem?_concat_length, List.take_left, Option.some_inj]

/-- Settles O20: both sides compare with the seed, `ptype` and the fold of the first `len` bytes. -/
theorem transmitAndReceiveSeedsAgree : Obligations.TransmitAndReceiveSeedsAgree := by
  intro bytes ptype len _
  rw [verifyRx_iff, List.singleton_append, computeTx_cons]

/-- Settles O22, a lemma for each of the five laws. -/
theorem checksumErrorDetection : Obligations.ChecksumErrorDetection :=
  ⟨computeTx_append, fun _ _ => computeTx_perm,
    fun a b x y hne => ⟨computeTx_replace_byte a b x y, computeTx_replace_byte_ne a b hne⟩,
    computeTx_two_bytes_xor,
    fun bytes ptype => ⟨seed ^^^ ptype ^^^ fold bytes, (verifyRx_snoc_iff bytes ptype _).mpr rfl,
      fun x => (verifyRx_snoc_iff bytes ptype x).mp⟩⟩

/-- Settles O21: the fold of the bytes and their checksum is the seed, which a second seed cancels. -/
theorem checksumIsSelfChecking : Obligations.ChecksumIsSelfChecking := by
  intro bytes
  refine ⟨fold_snoc_computeTx bytes, ?_, ?_⟩
  · rw [computeTx, fold_snoc_computeTx, LawfulXor.xor_self]
  · exact (verifyRx_snoc_iff bytes 0x00 _).mpr rfl

/-! ## The operations (R77, R78) -/

/-- Settles O23. -/
theorem cstxReturnsTheWindowChecksum : Obligations.CstxReturnsTheWindowChecksum :=
  fun sel _ _ s hend => ⟨_, exec_cstx_of_le s sel hend, rfl, rfl⟩

/-- The check of a window and the byte after it, by the bytes of the buffer (R72). -/
theorem verifyRx_bytes_iff (s : State) (sel : BufSel) (base len : Nat) (ptype : Byte) :
    verifyRx (s.bytes sel base (len + 1)) ptype len = true ↔
      s.byte sel (base + len) = seed ^^^ ptype ^^^ fold (s.bytes sel base len) := by
  have hcheck := verifyRx_snoc_iff (s.bytes sel base len) ptype (s.byte sel (base + len))
  rwa [← bytes_snoc, length_bytes] at hcheck

/-- Settles O24: the window that `CSRX` reads ends with the check byte. -/
theorem csrxReturnsTheWindowCheck : Obligations.CsrxReturnsTheWindowCheck :=
  fun sel _ _ ptype s hend => ⟨_, exec_csrx_of_le s sel ptype hend, rfl, verifyRx_bytes_iff _ _ _ _ _⟩

end Sys2Proof.Proofs
end

section
/-! SUPPORT and PROOFS, scope: the table of the Status Decoder, the count of a status, and what `STDEC` and `STRDY`
answer. -/

namespace Sys2Proof.Proofs

open Sys2Proof.Machine Sys2Proof.Laws Sys2Proof.Safety

/-! ## The table (R53 to R56) -/

/-- The nine fixed codes in the order of the table (R53). -/
def fixedCodes : List Byte := [0x00, 0x07, 0x3F, 0x3E, 0x80, 0x81, 0x82, 0x83, 0xFF]

/-- The fixed codes as the chain of equalities that R85 tries. -/
theorem fixedKind_getD (raw : Byte) (k : Kind) : (fixedKind raw).getD k =
    if raw = 0x00 then .disabled else if raw = 0x07 then .userStopped
    else if raw = 0x3F then .bufferFullCrcOk else if raw = 0x3E then .bufferFullCrcError
    else if raw = 0x80 then .communicationMode else if raw = 0x81 then .programmingMode
    else if raw = 0x82 then .debugMode else if raw = 0x83 then .slowMode
    else if raw = 0xFF then .noModuleDetected else k := by
  simp only [← BitVec.toNat_inj]
  unfold fixedKind
  split <;> simp_all

theorem fixedKind_eq_none_iff (raw : Byte) : fixedKind raw = none ↔ raw ∉ fixedCodes := by
  simp only [fixedCodes, List.mem_cons, List.not_mem_nil, ← BitVec.toNat_inj]
  unfold fixedKind
  split <;> simp_all

/-- Neither `data_ready` nor `unknown` is the kind of a fixed code. -/
theorem fixedKind_ne {raw : Byte} {k : Kind} (h : fixedKind raw = some k) : k ≠ .dataReady ∧ k ≠ .unknown := by
  unfold fixedKind at h
  split at h <;> cases h <;> decide

theorem inDataReadyRange_iff (cfg : Cfg) (raw : Byte) :
    inDataReadyRange cfg raw = true ↔ 0x40 ≤ raw.toNat ∧ raw.toNat ≤ 0x40 + cfg.maxSpiLen.toNat := by
  rw [inDataReadyRange, Bool.and_eq_true, decide_eq_true_iff, decide_eq_true_iff]
  rfl

theorem decodeStatus_kind (cfg : Cfg) (raw : Byte) : (decodeStatus cfg raw).kind =
    (fixedKind raw).getD (if inDataReadyRange cfg raw then .dataReady else .unknown) := by
  unfold decodeStatus
  split <;> simp [*]

/-- Settles O25: what is left of the chain after the nine equalities is the range test. -/
theorem decodeStatusIsTheTable : Obligations.DecodeStatusIsTheTable := by
  intro cfg raw
  refine ⟨decodeStatus_code cfg raw, ?_⟩
  simp only [decodeStatus_kind, fixedKind_getD, inDataReadyRange_iff]

/-- The range applies to the bytes that are no fixed code (R54, R56). -/
theorem kind_eq_dataReady_iff (cfg : Cfg) (raw : Byte) : (decodeStatus cfg raw).kind = .dataReady ↔
    raw ∉ fixedCodes ∧ 0x40 ≤ raw.toNat ∧ raw.toNat ≤ 0x40 + cfg.maxSpiLen.toNat := by
  rw [← fixedKind_eq_none_iff, ← inDataReadyRange_iff, decodeStatus_kind]
  cases hfixed : fixedKind raw with
  | none => simp
  | some k => simp [(fixedKind_ne hfixed).1]

/-- The kinds other than `data_ready` and `unknown` are those of the fixed codes (R53). -/
theorem kind_fixed_iff (cfg : Cfg) (raw : Byte) :
    ((decodeStatus cfg raw).kind ≠ .dataReady ∧ (decodeStatus cfg raw).kind ≠ .unknown) ↔ raw ∈ fixedCodes := by
  rw [← not_iff_not, ← fixedKind_eq_none_iff, decodeStatus_kind]
  cases hfixed : fixedKind raw with
  | none => cases inDataReadyRange cfg raw <;> simp
  | some k => simp [fixedKind_ne hfixed]

/-! ## How many bytes of each part (R86) -/

/-- The three parts cover a list of bytes, whatever their kinds are. -/
theorem length_filter_parts (kindOf : Nat → Kind) (l : List Nat) :
    (l.filter fun n => kindOf n ≠ .dataReady ∧ kindOf n ≠ .unknown).length +
      (l.filter fun n => kindOf n = .dataReady).length + (l.filter fun n => kindOf n = .unknown).length = l.length := by
  induction l with
  | nil => rfl
  | cons n l ih =>
    by_cases hready : kindOf n = .dataReady
    · simp [hready, ← ih]
      omega
    · by_cases hunknown : kindOf n = .unknown
      · simp [hunknown, ← ih]
        omega
      · simp [hready, hunknown, ← ih]
        omega

theorem length_filter_fixed (cfg : Cfg) :
    ((List.range 256).filter fun n => (decodeStatus cfg (BitVec.ofNat 8 n)).kind ≠ .dataReady ∧
      (decodeStatus cfg (BitVec.ofNat 8 n)).kind ≠ .unknown).length = 9 := by
  simp only [kind_fixed_iff]
  decide

/-- How many bytes of the range of R54 are no fixed codes. -/
def readyCount (maxSpiLen : Byte) : Nat :=
  ((List.range 256).filter fun n => BitVec.ofNat 8 n ∉ fixedCodes ∧
    0x40 ≤ (BitVec.ofNat 8 n).toNat ∧ (BitVec.ofNat 8 n).toNat ≤ 0x40 + maxSpiLen.toNat).length

theorem length_filter_dataReady (cfg : Cfg) :
    ((List.range 256).filter fun n => (decodeStatus cfg (BitVec.ofNat 8 n)).kind = .dataReady).length =
      readyCount cfg.maxSpiLen := by
  simp only [kind_eq_dataReady_iff, readyCount]

/-- The unknown bytes are those of neither other part. -/
theorem length_filter_unknown (cfg : Cfg) :
    ((List.range 256).filter fun n => (decodeStatus cfg (BitVec.ofNat 8 n)).kind = .unknown).length =
      247 - readyCount cfg.maxSpiLen := by
  have hparts := length_filter_parts (fun n => (decodeStatus cfg (BitVec.ofNat 8 n)).kind) (List.range 256)
  rw [length_filter_fixed, length_filter_dataReady, List.length_range] at hparts
  omega

theorem readyCount_41 : readyCount 41 = 42 := by decide

/-- The range to 0x80 has 65 bytes, and 0x80 is a fixed code. -/
theorem readyCount_64 : readyCount 64 = 64 := by decide

/-- Settles O27, a lemma for each of the three parts. -/
theorem statusPartitionCounts : Obligations.StatusPartitionCounts := by
  intro cfg
  rw [length_filter_dataReady, length_filter_unknown]
  refine ⟨length_filter_fixed cfg, fun hspi => ?_, fun hspi => ?_⟩
  · rw [hspi, readyCount_41]
    exact ⟨rfl, rfl⟩
  · rw [hspi, readyCount_64]
    exact ⟨rfl, rfl⟩

/-! ## The count of a status (R87) -/

theorem bytesReady_of_dataReady {cfg : Cfg} {raw : Byte} (h : (decodeStatus cfg raw).kind = .dataReady) :
    bytesReady cfg (decodeStatus cfg raw) = if raw = 0x40 then cfg.fullCount.toNat else raw.toNat - 0x40 := by
  rw [bytesReady, if_neg (not_not_intro h), decodeStatus_code]
  exact if_congr (BitVec.toNat_inj (y := 0x40)) rfl rfl

theorem bytesReady_of_ne_dataReady {cfg : Cfg} {raw : Byte} (h : (decodeStatus cfg raw).kind ≠ .dataReady) :
    bytesReady cfg (decodeStatus cfg raw) = 0 := if_pos h

/-- Away from the boundary code, the range loses only the five fixed codes that lie above it (R89). -/
theorem kind_eq_dataReady_iff_of_ne (cfg : Cfg) {raw : Byte} (hne : raw ≠ 0x40) :
    (decodeStatus cfg raw).kind = .dataReady ↔ 0x41 ≤ raw.toNat ∧ raw.toNat ≤ 0x40 + cfg.maxSpiLen.toNat ∧
      raw ∉ ([0x80, 0x81, 0x82, 0x83, 0xFF] : List Byte) := by
  rw [kind_eq_dataReady_iff]
  simp only [fixedCodes, List.mem_cons, List.not_mem_nil, or_false]
  bv_omega

/-- The boundary code is in the range for every `MAX_SPI_LEN`. -/
theorem kind_boundary (cfg : Cfg) : (decodeStatus cfg 0x40).kind = .dataReady :=
  (kind_eq_dataReady_iff cfg 0x40).mpr ⟨by decide, Nat.le_refl _, Nat.le_add_right _ _⟩

/-- Settles O26: the boundary code first, then the rest of the range. -/
theorem bytesReadyOfDecodedStatus : Obligations.BytesReadyOfDecodedStatus := by
  intro cfg raw
  by_cases hboundary : raw = 0x40
  · subst hboundary
    rw [bytesReady_of_dataReady (kind_boundary cfg)]
    rfl
  · rw [if_neg hboundary]
    simp only [← kind_eq_dataReady_iff_of_ne cfg hboundary]
    split
    case isTrue hready => rw [bytesReady_of_dataReady hready, if_neg hboundary]
    case isFalse hother => exact bytesReady_of_ne_dataReady hother

/-! ## The operations (R93, R94) -/

theorem afterAnswer_recordDiagnostic (s : State) (st : ModuleStatus) (r : Response) :
    afterAnswer (s.recordDiagnostic st) r =
      if st.kind = .unknown then { s with diagUnk := true, diagRaw := st.code, responses := r :: s.responses }
      else { s with responses := r :: s.responses } := by
  unfold State.recordDiagnostic
  split <;> rfl

theorem statusBits_decodeStatus (cfg : Cfg) (raw : Byte) :
    statusBits (decodeStatus cfg raw) = kindNumber (decodeStatus cfg raw).kind ++ raw := by
  rw [statusBits, decodeStatus_code]

/-- Settles O28: the answer is given on the state with the status recorded. -/
theorem stdecReturnsTheStatusAndRecordsUnknown : Obligations.StdecReturnsTheStatusAndRecordsUnknown := by
  intro raw s
  refine ⟨{ err := .ok, status := statusBits (decodeStatus s.cfg raw) }, rfl, statusBits_decodeStatus s.cfg raw, ?_⟩
  rw [exec_stdec, afterAnswer_recordDiagnostic, decodeStatus_code]

/-- 9 is the number of `data_ready` (R58). -/
theorem kindNumber_eq_nine_iff (k : Kind) : kindNumber k = 9 ↔ k = .dataReady := by
  cases k <;> decide

/-- No count is wider than the `count` field. -/
theorem bytesReady_lt (cfg : Cfg) (st : ModuleStatus) : bytesReady cfg st < 256 := by
  have hfull := cfg.fullCount.isLt
  have hcode := st.code.isLt
  unfold bytesReady
  split_ifs <;> omega

/-- Settles O29: the operand's kind is the kind of the decoded code. -/
theorem strdyReturnsTheBytesReady : Obligations.StrdyReturnsTheBytesReady := by
  intro kind code s hstatus
  refine ⟨_, exec_strdy_of_statusOk s ((statusOk_iff _ _ _).mpr hstatus), rfl, ?_⟩
  have hkind : kindNumber (decodeStatus s.cfg code).kind = kind :=
    (append_inj ((statusBits_decodeStatus _ _).symm.trans hstatus)).1
  rw [BitVec.toNat_ofNat, Nat.mod_eq_of_lt (bytesReady_lt _ _), ← hkind]
  simp only [ne_eq, kindNumber_eq_nine_iff]
  split
  case isTrue hother => exact bytesReady_of_ne_dataReady hother
  case isFalse hready => exact bytesReady_of_dataReady (not_not.mp hready)

end Sys2Proof.Proofs
end

section
/-! SUPPORT and PROOFS, scope: the frames that `FBQ` and `FBX` build in `TXBUF`, and how `FPQ` and `FPX` answer what the parser
functions return for `RXBUF`. -/

namespace Sys2Proof.Proofs

open Sys2Proof.Machine Sys2Proof.Laws Sys2Proof.Safety

/-! ## The status query (R113) -/

/-- `FBQ` writes the first five addresses of `TXBUF` only. -/
theorem byte_withQuery_of_le (s : State) {a : Nat} (ha : 5 ≤ a) : (withQuery s).byte .tx a = s.byte .tx a := by
  rw [withQuery, byte_setByte, if_neg (by omega), byte_setByte, if_neg (by omega), byte_withHeader, if_neg (by omega),
    if_neg (by omega), if_neg (by omega)]

/-- Settles O32: the answer is given on `withQuery s`. -/
theorem fbqBuildsTheStatusQuery : Obligations.FbqBuildsTheStatusQuery :=
  fun s => ⟨_, _, exec_fbq s, rfl, rfl, ⟨rfl, rfl, rfl, rfl, rfl⟩, bytes_withQuery s, rfl,
    fun _ ha => byte_withQuery_of_le s ha, fun _ => rfl⟩

/-! ## The clamped length (R102) -/

theorem clampLength_le_maxPayload (cfg : Cfg) (length : Nat) : clampLength cfg length ≤ cfg.maxPayload.toNat :=
  Nat.min_le_right _ _

theorem clampLength_clampLength (cfg : Cfg) (length : Nat) :
    clampLength cfg (clampLength cfg length) = clampLength cfg length :=
  clampLength_of_le (clampLength_le_maxPayload cfg length)

theorem clampLength_of_ge {cfg : Cfg} {n : Nat} (h : cfg.maxPayload.toNat ≤ n) : clampLength cfg n = cfg.maxPayload.toNat :=
  Nat.min_eq_right h

/-- A frame depends on the requested length by the clamped one only. -/
theorem buildDataExchange_clampLength (cfg : Cfg) (command : Byte) (payload : List Byte) (length : Nat) (isWrite : Bool) :
    buildDataExchange cfg command payload (clampLength cfg length) isWrite =
      buildDataExchange cfg command payload length isWrite := by
  simp only [buildDataExchange, dataExchangeBody, clampLength_clampLength]

theorem wasClamped_iff (cfg : Cfg) (length : Nat) : wasClamped cfg length = true ↔ cfg.maxPayload.toNat < length :=
  decide_eq_true_iff

/-! ## A built frame (R101, R104) -/

/-- Marker, command, PTYPE and check stand around the payload bytes that the frame takes. -/
theorem length_buildDataExchange_of_le {cfg : Cfg} (command : Byte) {payload : List Byte} {length : Nat} (isWrite : Bool)
    (h : clampLength cfg length ≤ payload.length) :
    (buildDataExchange cfg command payload length isWrite).length = clampLength cfg length + 4 := by
  simp [buildDataExchange, dataExchangeBody, List.length_take, Nat.min_eq_left h]

/-- Settles O34: byte 2 packs the clamped length, and the last byte is the checksum of those between it and the marker. -/
theorem builtFrameCarriesItsOwnCheck : Obligations.BuiltFrameCarriesItsOwnCheck := by
  intro cfg command payload length isWrite hwf hpayload
  have hmax := clampLength_le_of_wf hwf length
  have hlen := length_buildDataExchange_of_le command isWrite hpayload
  refine ⟨rfl, ⟨packPtype (clampLength cfg length) isWrite, rfl, ptypeIsWrite_packPtype (by omega) isWrite, ?_⟩, by omega,
    fold_drop_buildDataExchange _ _ _ _ _⟩
  rw [hlen, ptypeLen_packPtype (by omega)]

/-! ## The PTYPE byte as a number (R51, R52) -/

theorem ptypeIsWrite_eq_decide (p : Byte) : ptypeIsWrite p = decide (128 ≤ p.toNat) :=
  (BitVec.msb_eq_getLsbD_last p).symm.trans (BitVec.msb_eq_decide p)

theorem toNat_eq_writeBit_add_ptypeLen (p : Byte) : p.toNat = (if ptypeIsWrite p then 128 else 0) + ptypeLen p := by
  have hbyte := p.isLt
  simp only [ptypeIsWrite_eq_decide, decide_eq_true_iff, ptypeLen_eq_mod]
  split <;> omega

theorem toNat_packPtype {l : Nat} (hl : l ≤ 127) (isWrite : Bool) :
    (packPtype l isWrite).toNat = (if isWrite then 128 else 0) + l := by
  rw [toNat_eq_writeBit_add_ptypeLen, ptypeIsWrite_packPtype hl, ptypeLen_packPtype hl]

/-! ## The frame in `TXBUF` (R114) -/

/-- Every byte of `TXBUF` once the frame is built: the check, the header, or the byte that stood there. -/
theorem byte_withExchange (s : State) (isWrite : Bool) (command : Byte) (n a : Nat) :
    (withExchange s isWrite command n).byte .tx a =
      if a = 3 + n then computeTx ([command, packPtype n isWrite] ++ s.bytes .tx 3 n)
      else (withHeader s command (packPtype n isWrite)).byte .tx a := by
  simp only [withExchange, byte_setByte, bytes_withHeader, true_and]

theorem byte_withExchange_of_notMem (s : State) (isWrite : Bool) (command : Byte) {n a : Nat} (ha : a ∉ [0, 1, 2, 3 + n]) :
    (withExchange s isWrite command n).byte .tx a = s.byte .tx a := by
  simp only [List.mem_cons, List.not_mem_nil, or_false, not_or] at ha
  obtain ⟨hmarker, hcommand, hptype, hcheck⟩ := ha
  rw [byte_withExchange, if_neg hcheck, byte_withHeader, if_neg hptype, if_neg hcommand, if_neg hmarker]

/-- The payload is not moved. -/
theorem bytes_payload_withExchange (s : State) (isWrite : Bool) (command : Byte) (n : Nat) :
    (withExchange s isWrite command n).bytes .tx 3 n = s.bytes .tx 3 n :=
  bytes_congr _ _ _ _ _ fun _ hlo hhi => byte_withExchange_of_notMem s isWrite command (by simp; omega)

/-- The bytes after the marker: what the checksum covers, and the checksum. -/
theorem bytes_checked_withExchange (s : State) (isWrite : Bool) (command : Byte) (n : Nat) :
    (withExchange s isWrite command n).bytes .tx 1 (2 + n + 1) =
      [command, packPtype n isWrite] ++ s.bytes .tx 3 n ++
        [computeTx ([command, packPtype n isWrite] ++ s.bytes .tx 3 n)] := by
  have hbody : (withExchange s isWrite command n).bytes .tx 1 (2 + n) =
      (withHeader s command (packPtype n isWrite)).bytes .tx 1 (2 + n) :=
    bytes_congr _ _ _ _ _ fun a _ hhi => by rw [byte_withExchange, if_neg (by omega)]
  rw [bytes_snoc, hbody, bytes_withHeader, byte_withExchange, if_pos (by omega)]

/-- The frame that stands in `TXBUF` is the one built of the requested length, clamped or not. -/
theorem bytes_withExchange_clampLength (s : State) (isWrite : Bool) (command : Byte) (length : Nat) :
    (withExchange s isWrite command (clampLength s.cfg length)).bytes .tx 0 (clampLength s.cfg length + 4) =
      buildDataExchange s.cfg command (s.bytes .tx 3 (clampLength s.cfg length)) length isWrite := by
  rw [bytes_withExchange s isWrite command (clampLength_le_maxPayload _ _), length_bytes, buildDataExchange_clampLength]

/-- The 7 bits of `TXLEN` hold the length of a frame whole. -/
theorem toNat_frameLength {cfg : Cfg} (hwf : cfg.wf = true) (length : Nat) :
    (BitVec.ofNat 7 (clampLength cfg length + 4)).toNat = clampLength cfg length + 4 := by
  have hmax := clampLength_le_of_wf hwf length
  exact Nat.mod_eq_of_lt (by omega)

/-- Settles O33: the answer is given on `withExchange s`. -/
theorem fbxBuildsTheDataExchangeFrame : Obligations.FbxBuildsTheDataExchangeFrame := by
  intro isWrite command length s hwf
  have hmax := clampLength_le_of_wf hwf length.toNat
  exact ⟨_, _, exec_fbx_of_wf s isWrite command length hwf, rfl, ⟨rfl, rfl, rfl, rfl, rfl⟩,
    bytes_withExchange_clampLength s isWrite command length.toNat,
    fun _ ha => byte_withExchange_of_notMem s isWrite command ha, fun _ => rfl,
    toNat_frameLength hwf length.toNat, rfl, toNat_packPtype (by omega) isWrite, wasClamped_iff _ _⟩

/-- The bytes that `CSTX` would cover and the check after them verify with PTYPE 0x00 (R74, R117). -/
theorem verifyRx_withExchange (s : State) (isWrite : Bool) (command : Byte) (n : Nat) :
    verifyRx ((withExchange s isWrite command n).bytes .tx 1 (2 + n + 1)) 0x00 (2 + n) = true := by
  obtain ⟨-, -, hverify⟩ := checksumIsSelfChecking ([command, packPtype n isWrite] ++ s.bytes .tx 3 n)
  have hlen : ([command, packPtype n isWrite] ++ s.bytes .tx 3 n).length = 2 + n := by
    rw [List.length_append, length_bytes]
    rfl
  rwa [hlen, ← bytes_checked_withExchange] at hverify

/-- Settles O35: the window of `TXLEN - 2` bytes from address 1 ends before the frame's check. -/
theorem builtFrameVerifiesAsAWindow : Obligations.BuiltFrameVerifiesAsAWindow := by
  intro isWrite command length s hwf
  have hmax := clampLength_le_of_wf hwf length.toNat
  have hwindow : (BitVec.ofNat 8 ((BitVec.ofNat 7 (clampLength s.cfg length.toNat + 4)).toNat - 2)).toNat =
      2 + clampLength s.cfg length.toNat := by
    rw [toNat_frameLength hwf, BitVec.toNat_ofNat]
    omega
  have hend : 2 + clampLength s.cfg length.toNat ≤ 62 := by omega
  refine ⟨_, _, exec_fbx_of_wf s isWrite command length hwf, exec_csrx_of_le _ .tx 0x00 ?_, rfl, ?_⟩
  all_goals rw [afterAnswer_txlen, setTxlen_txlen, hwindow]
  · exact Nat.add_le_add_left hend 1
  · exact verifyRx_withExchange s isWrite command _

@[simp] theorem withExchange_cfg (s : State) (isWrite : Bool) (command : Byte) (n : Nat) :
    (withExchange s isWrite command n).cfg = s.cfg := rfl

/-- A frame built again around the same payload is the same frame. -/
theorem byte_withExchange_of_built {s t : State} {isWrite : Bool} {command : Byte} {n : Nat}
    (ht : t.txbuf = (withExchange s isWrite command n).txbuf) (a : Nat) :
    (withExchange t isWrite command n).byte .tx a = t.byte .tx a := by
  have hpayload : t.bytes .tx 3 n = s.bytes .tx 3 n :=
    (bytes_tx_congr ht 3 n).trans (bytes_payload_withExchange s isWrite command n)
  rw [byte_withExchange, byte_withHeader, hpayload, byte_tx_congr ht, byte_withExchange, byte_withHeader]
  split_ifs <;> rfl

/-- Settles O36: the second build finds the frame of the first. -/
theorem fbxIsIdempotent : Obligations.FbxIsIdempotent := by
  intro isWrite command length s hwf
  have hagain (t : State) (hcfg : t.cfg = s.cfg) := exec_fbx_of_wf t isWrite command length (by rw [hcfg, hwf])
  refine ⟨_, _, exec_fbx_of_wf s isWrite command length hwf, hagain _ (by simp), by simp, fun sel a => ?_⟩
  rw [byte_afterAnswer, setTxlen_byte, afterAnswer_cfg, setTxlen_cfg, withExchange_cfg]
  cases sel with
  | tx => exact byte_withExchange_of_built (s := s) ((afterAnswer_txbuf _ _).trans (setTxlen_txbuf _ _)) a
  | rx => rfl

/-- Settles O37: both lengths clamp to `MAX_PAYLOAD`. -/
theorem overlongBuildIsTheMaximumBuild : Obligations.OverlongBuildIsTheMaximumBuild := by
  intro isWrite command length s hwf hlong
  have hoverlong := exec_fbx_of_wf s isWrite command length hwf
  have hmaximum := exec_fbx_of_wf s isWrite command s.cfg.maxPayload hwf
  rw [clampLength_of_ge (Nat.le_of_lt hlong)] at hoverlong
  rw [clampLength_of_ge (Nat.le_refl _)] at hmaximum
  refine ⟨_, _, _, _, hoverlong, hmaximum, rfl, rfl, (wasClamped_iff _ _).mpr hlong, ?_, rfl, rfl, rfl, rfl, rfl,
    fun sel a => ?_⟩
  · exact Bool.eq_false_iff.mpr fun h => Nat.lt_irrefl _ ((wasClamped_iff _ _).mp h)
  · rw [byte_afterAnswer, byte_afterAnswer]

/-! ## The status reply (R106, R115) -/

theorem parseStatusReply_bytes (cfg : Cfg) (s : State) (len : Nat) :
    parseStatusReply cfg (s.bytes .rx 0 (len + 2)) = decodeStatus cfg (s.byte .rx 1) := rfl

/-- Settles O38: byte 1 of the reply is the raw status. -/
theorem fpqReturnsTheStatusReply : Obligations.FpqReturnsTheStatusReply := by
  intro s
  refine ⟨exec_fpq s, _, { err := .ok, status := statusBits (decodeStatus s.cfg (s.byte .rx 1)) },
    (exec_fpq s).trans (exec_stdec s _), ?_, rfl, ?_⟩
  · exact congrArg (_ :: ·) (recordDiagnostic_responses s _)
  · rw [parseStatusReply_bytes]

/-! ## The response (R107 to R111, R116) -/

theorem take_bytes (s : State) (sel : BufSel) (base : Nat) {k len : Nat} (h : k ≤ len) :
    (s.bytes sel base len).take k = s.bytes sel base k := by
  obtain ⟨rest, rfl⟩ := Nat.exists_eq_add_of_le h
  rw [bytes_append, List.take_left' (length_bytes _ _ _ _)]

theorem drop_bytes (s : State) (sel : BufSel) (base : Nat) (k len : Nat) :
    (s.bytes sel base (k + len)).drop k = s.bytes sel (base + k) len := by
  rw [bytes_append, List.drop_left' (length_bytes _ _ _ _)]

/-- The check reads no byte after the check byte (R72). -/
theorem verifyRx_take_succ (bytes : List Byte) (ptype : Byte) (len : Nat) :
    verifyRx (bytes.take (len + 1)) ptype len = verifyRx bytes ptype len := by
  simp [verifyRx, List.take_take]

/-- `parseDataExchange` of the bytes of `RXBUF`, each of its slices read from the buffer. -/
theorem parseDataExchange_bytes (s : State) (ptype : Byte) {n : Nat} (hn : n ≤ 61) :
    parseDataExchange (s.bytes .rx 0 64) ptype n =
      if verifyRx (s.bytes .rx 2 (n + 1)) ptype n then
        if ptypeIsWrite ptype then .ok (s.bytes .rx 0 (n + 2)) else .ok (s.bytes .rx 2 n)
      else .checksumMismatch (s.bytes .rx 0 4) := by
  have hdrop : (s.bytes .rx 0 64).drop 2 = s.bytes .rx 2 62 := drop_bytes s .rx 0 2 62
  rw [parseDataExchange, hdrop, ← verifyRx_take_succ, take_bytes _ _ _ (by omega), take_bytes _ _ _ (by omega),
    take_bytes _ _ _ (by omega), take_bytes _ _ _ (by omega), Nat.add_comm 2 n]

/-- The number of bytes in the slice, which its 7 bits hold whole (R116). -/
theorem parseSlice_n {good : Bool} {n : Nat} (ptype : Byte) (hn : n ≤ 61) : (parseSlice good n ptype).n.toNat =
    if good then if ptypeIsWrite ptype then n + 2 else n else 4 := by
  unfold parseSlice
  split_ifs
  · exact Nat.mod_eq_of_lt (by omega)
  · exact Nat.mod_eq_of_lt (by omega)
  · rfl

theorem parseSlice_off (good : Bool) (n : Nat) (ptype : Byte) : (parseSlice good n ptype).off =
    if good then if ptypeIsWrite ptype then 0 else 2 else 0 := by
  unfold parseSlice
  split_ifs <;> rfl

/-- Settles O39, along the three outcomes of the parse. -/
theorem fpxAnswersTheParseOfTheResponse : Obligations.FpxAnswersTheParseOfTheResponse := by
  intro payloadLength ptype s hlen
  refine ⟨_, exec_fpx_of_le s ptype hlen, ?_⟩
  rw [parseDataExchange_bytes s ptype hlen, parseSlice_err, parseSlice_off, parseSlice_n ptype hlen]
  cases verifyRx (s.bytes .rx 2 (payloadLength.toNat + 1)) ptype payloadLength.toNat with
  | false => exact ⟨rfl, rfl, rfl⟩
  | true =>
    cases ptypeIsWrite ptype with
    | false => exact ⟨rfl, rfl⟩
    | true => exact ⟨rfl, rfl⟩

/-- Settles O40: the check is the comparison written out. -/
theorem fpxSliceByCheckAndDirection : Obligations.FpxSliceByCheckAndDirection := by
  intro payloadLength ptype s hlen
  refine ⟨_, exec_fpx_of_le s ptype hlen, ?_⟩
  have hcheck := verifyRx_bytes_iff s .rx 2 payloadLength.toNat ptype
  split
  case isTrue hmatch =>
    rw [hcheck.mpr hmatch, parseSlice_off, parseSlice_n ptype hlen]
    refine ⟨parseSlice_err _ _ _, ?_⟩
    split
    case isTrue hwrite => exact ⟨if_pos hwrite, if_pos hwrite⟩
    case isFalse hread => exact ⟨if_neg hread, if_neg hread⟩
  case isFalse hmismatch =>
    rw [Bool.eq_false_iff.mpr fun hgood => hmismatch (hcheck.mp hgood)]
    exact ⟨rfl, rfl, rfl⟩

theorem parseSlice_err_eq_ok_iff (good : Bool) (payloadLength : Nat) (ptype : Byte) :
    (parseSlice good payloadLength ptype).err = .ok ↔ good = true := by
  rw [parseSlice_err]
  cases good <;> decide

/-- `FPX` answers OK exactly when the byte after the payload is the right check byte (R116). -/
theorem exec_fpx_ok_iff {payloadLength : Byte} (ptype : Byte) (s : State) (hlen : payloadLength.toNat ≤ 61) :
    (∃ t r, exec (.fpx payloadLength ptype) s = .next t ∧ t.responses = r :: s.responses ∧ r.err = .ok) ↔
      s.byte .rx (2 + payloadLength.toNat) = seed ^^^ ptype ^^^ fold (s.bytes .rx 2 payloadLength.toNat) := by
  rw [← verifyRx_bytes_iff, ← parseSlice_err_eq_ok_iff _ payloadLength.toNat ptype, exec_fpx_of_le s ptype hlen]
  constructor
  · rintro ⟨t, r, ⟨⟩, ⟨⟩, herr⟩
    exact herr
  · exact fun herr => ⟨_, _, rfl, rfl, herr⟩

/-- Writing the byte after a window leaves the window as it was. -/
theorem bytes_setByte_end (s : State) (sel : BufSel) (base len : Nat) (v : Byte) :
    (s.setByte sel (base + len) v).bytes sel base len = s.bytes sel base len :=
  bytes_congr _ _ _ _ _ fun _ _ hhi => by rw [byte_setByte, if_neg (by omega)]

/-- Settles O41: both operations make the same check, and the byte compared is the one written. -/
theorem fpxSucceedsExactlyWhenCsrxDoes : Obligations.FpxSucceedsExactlyWhenCsrxDoes := by
  intro payloadLength ptype s hlen
  have hend : (2 : Byte).toNat + payloadLength.toNat ≤ 63 := Nat.add_le_add_left hlen 2
  refine ⟨⟨_, _, exec_fpx_of_le s ptype hlen, exec_csrx_of_le s .rx ptype hend, parseSlice_err_eq_ok_iff _ _ _⟩, ?_⟩
  have hok (x : Byte) := exec_fpx_ok_iff ptype (s.setByte .rx (2 + payloadLength.toNat) x) hlen
  simp only [setByte_responses, byte_setByte, and_self, if_true, bytes_setByte_end] at hok
  simp only [hok, existsUnique_eq]

end Sys2Proof.Proofs
end

section
/-! SUPPORT and PROOFS, scope: what the host access operations answer and write, and that the operations without a
state write only answer. -/

namespace Sys2Proof.Proofs

open Sys2Proof.Machine Sys2Proof.Laws Sys2Proof.Safety

/-! ## The operations that state no write -/

/-- `HWR`, the operations that decode a raw status, and the two builders are all that write state; any other only answers. -/
theorem Effect.eq_afterAnswer {s t : State} {i : Instr} (h : Effect s i t) (hquiet : recordedRaw s i = none)
    (hhwr : ∀ sel addr data, i ≠ .hwr sel addr data) (hfbq : i ≠ .fbq)
    (hfbx : ∀ isWrite command length, i ≠ .fbx isWrite command length) : ∃ r, t = afterAnswer s r := by
  cases h with
  | answered i r => exact ⟨r, rfl⟩
  | wrote sel addr data => exact absurd rfl (hhwr sel addr data)
  | decoded i raw r hraw => exact absurd (hquiet.symm.trans hraw) (Option.some_ne_none raw).symm
  | builtQuery => exact absurd rfl hfbq
  | builtExchange isWrite command length => exact absurd rfl (hfbx isWrite command length)

/-- Settles O44: none of the eight decodes a raw status, is `HWR` or is a builder. -/
theorem readingOperationsWriteNoState : Obligations.ReadingOperationsWriteNoState := by
  rintro i s t h (⟨sel, addr, rfl⟩ | ⟨n, rfl⟩ | ⟨sel, base, len, rfl⟩ | ⟨sel, base, len, ptype, rfl⟩ |
    ⟨kind, code, rfl⟩ | ⟨payloadLength, ptype, rfl⟩ | ⟨rest, rfl⟩ | ⟨op, rest, rfl⟩)
  all_goals exact (exec_effect h).eq_afterAnswer rfl nofun nofun nofun

/-! ## `HWR` and `HRD` (R130, R131) -/

/-- The fields outside the buffers and `TXLEN` are those of the state written to. -/
theorem onlyBuffersAndLength_wrote (s : State) (sel : BufSel) (a : Nat) (data : Byte) (r : Response) :
    OnlyBuffersAndLength s (afterAnswer ((s.setByte sel a data).touchTxlen sel) r) r := by
  cases sel with
  | tx => exact ⟨rfl, rfl, rfl, rfl, rfl⟩
  | rx => exact ⟨rfl, rfl, rfl, rfl, rfl⟩

theorem byte_wrote (s : State) (sel sel' : BufSel) (a b : Nat) (data : Byte) (r : Response) :
    (afterAnswer ((s.setByte sel a data).touchTxlen sel) r).byte sel' b =
      if sel' = sel ∧ b = a then data else s.byte sel' b := by
  rw [byte_afterAnswer, byte_touchTxlen, byte_setByte]

theorem txlen_touchTxlen (s : State) (sel : BufSel) : (s.touchTxlen sel).txlen = if sel = .tx then 0 else s.txlen := by
  cases sel with
  | tx => rfl
  | rx => rfl

/-- Settles O15: an accepted `HWR` is the one write, the `TXLEN` update and the answer. -/
theorem hwrWritesOneByteAndClearsTxlen : Obligations.HwrWritesOneByteAndClearsTxlen := by
  intro sel addr data s haddr
  refine ⟨_, _, exec_hwr_of_le s sel data haddr, rfl, onlyBuffersAndLength_wrote s sel _ data _, ?_,
    fun sel' a hother => ?_, ?_⟩
  · rw [byte_wrote, if_pos ⟨rfl, rfl⟩]
  · rw [byte_wrote, if_neg hother]
  · rw [afterAnswer_txlen, txlen_touchTxlen, setByte_txlen]

/-- Settles O16. -/
theorem hrdReturnsTheByte : Obligations.HrdReturnsTheByte :=
  fun sel _ s haddr => ⟨_, exec_hrd_of_le s sel haddr, rfl, rfl⟩

/-! ## `CRRD` (R14, R132) -/

/-- The value of a control register, which widening with zeros does not change (R14). -/
theorem toNat_of_controlRegister {s : State} {n v : Byte} (hn : s.controlRegister n = some v) :
    v.toNat =
      if n = 0 then s.cfg.maxPayload.toNat else if n = 1 then s.cfg.maxSpiLen.toNat
      else if n = 2 then s.cfg.fullCount.toNat else if n = 3 then s.txlen.toNat
      else if n = 4 then s.diagUnk.toNat else s.diagRaw.toNat := by
  unfold State.controlRegister at hn
  split at hn
  case h_7 => cases hn
  all_goals
    rename_i hnum
    obtain ⟨-, rfl⟩ := BitVec.toNat_eq_nat.mp hnum
    cases hn
  case h_4 => exact BitVec.toNat_setWidth_of_le (by decide)
  case h_5 => cases s.diagUnk <;> rfl
  all_goals rfl

/-- Settles O17: the operands 0 to 5 are those that name a register. -/
theorem crrdReturnsTheControlRegister : Obligations.CrrdReturnsTheControlRegister := by
  intro n s hle
  obtain ⟨v, hn⟩ := Option.isSome_iff_exists.mp ((controlRegister_isSome_iff s n).mpr hle)
  exact ⟨_, exec_crrd_of_some s hn, rfl, toNat_of_controlRegister hn⟩

end Sys2Proof.Proofs
end

section
/-! SUPPORT and PROOFS, scope: the three ways an operation ends, by its error code, and what that says of errors; one response to
a request, and the idle step. -/

namespace Sys2Proof.Proofs

open Sys2Proof.Machine Sys2Proof.Laws Sys2Proof.Safety

/-! ## How an operation that answers ends -/

/-- The next state that an operation answers, by the error code of its response (R142 to R144). Only an OK answer may have
written state. -/
inductive Ending (s : State) (i : Instr) : State → Prop
  /-- The operation is performed; what it writes is left open. -/
  | ok {t : State} (r : Response) (herr : r.err = .ok) (hresponses : t.responses = r :: s.responses) : Ending s i t
  /-- An error is raised, with every result field zero (R45). -/
  | raised (e : Err) (hne : e ≠ .checksumMismatch) : Ending s i (afterAnswer s { err := e })
  /-- The check of `FPX` fails; the first four bytes are named (R116). -/
  | mismatch (payloadLength ptype : Byte) (hfpx : i = .fpx payloadLength ptype) :
      Ending s i (afterAnswer s { err := .checksumMismatch, off := 0, n := 4 })

/-- Whenever the outcome is a next state, it is one of the endings of `i` in `s`. -/
def EndsWell (s : State) (i : Instr) (out : Result) : Prop := ∀ t, out = .next t → Ending s i t

/-! ## The shared operations

`u` is the state that the operation has reached, `s` the one it began in. -/

section
variable {s u : State} {i : Instr}

theorem respond_endsWell {r : Response} (herr : r.err = .ok) (hresponses : u.responses = s.responses) :
    EndsWell s i (u.respond r) := by
  rintro t ⟨⟩
  exact .ok r herr (congrArg (r :: ·) hresponses)

theorem raise_endsWell {e : Err} (hne : e ≠ .checksumMismatch) : EndsWell s i (s.raise e) := by
  rintro t ⟨⟩
  exact .raised e hne

theorem fault_endsWell (f : Fault) : EndsWell s i (.fault f) := fun _ h => nomatch h

/-- An operand check with what follows it (R44). -/
theorem checked_endsWell {c : Prop} [Decidable c] {out : Result} (h : EndsWell s i out) :
    EndsWell s i (if c then out else s.raise .invalidArgument) := by
  split
  · exact h
  · exact raise_endsWell (by decide)

theorem memRead_endsWell {sel : BufSel} {a : Nat} {k : Byte → Result} (h : EndsWell s i (k (u.byte sel a))) :
    EndsWell s i (u.memRead sel a k) := by
  unfold State.memRead
  split
  · exact h
  · exact fault_endsWell _

theorem memWindow_endsWell {sel : BufSel} {base len : Nat} {k : List Byte → Result}
    (h : EndsWell s i (k (u.bytes sel base len))) : EndsWell s i (u.memWindow sel base len k) := by
  unfold State.memWindow
  split
  · exact h
  · exact fault_endsWell _

theorem memWrite_endsWell {sel : BufSel} {a : Nat} {v : Byte} {k : State → Result}
    (h : EndsWell s i (k (u.setByte sel a v))) : EndsWell s i (u.memWrite sel a v k) := by
  unfold State.memWrite
  split
  · exact h
  · exact fault_endsWell _

theorem respondStatus_endsWell (raw : Byte) : EndsWell s i (s.respondStatus raw) :=
  respond_endsWell rfl (recordDiagnostic_responses _ _)

end

/-! ## The operations -/

theorem execCrrd_endsWell (n : Byte) (s : State) : EndsWell s (.crrd n) (execCrrd n s) := by
  unfold execCrrd
  split
  · exact respond_endsWell rfl rfl
  · exact raise_endsWell (by decide)

theorem execFbq_endsWell (s : State) : EndsWell s .fbq (execFbq s) :=
  memWrite_endsWell <| memWrite_endsWell <| memWrite_endsWell <| memWrite_endsWell <| memWrite_endsWell <|
    respond_endsWell rfl rfl

theorem execFbx_endsWell (isWrite : Bool) (command length : Byte) (s : State) :
    EndsWell s (.fbx isWrite command length) (execFbx isWrite command length s) := by
  unfold execFbx
  extract_lets
  exact memWrite_endsWell <| memWrite_endsWell <| memWrite_endsWell <| memWindow_endsWell <| memWrite_endsWell <|
    respond_endsWell rfl rfl

theorem execFpq_endsWell (s : State) : EndsWell s .fpq (execFpq s) :=
  memRead_endsWell (respondStatus_endsWell (s.byte .rx 1))

/-- The one answer that is neither OK nor raised is the slice of a failed check. -/
theorem respond_parseSlice_endsWell (good : Bool) (n : Nat) (payloadLength ptype : Byte) (s : State) :
    EndsWell s (.fpx payloadLength ptype) (s.respond (parseSlice good n ptype)) := by
  cases good with
  | true => exact respond_endsWell (parseSlice_err true n ptype) rfl
  | false =>
    rintro t ⟨⟩
    exact .mismatch payloadLength ptype rfl

/-- The inversion of `exec` by the error code, in any configuration. -/
theorem exec_endsWell (i : Instr) (s : State) : EndsWell s i (exec i s) := by
  cases i with
  | hwr sel addr data =>
    exact checked_endsWell <| memWrite_endsWell <|
      respond_endsWell rfl ((touchTxlen_responses _ sel).trans (setByte_responses s sel _ data))
  | hrd sel addr => exact checked_endsWell <| memRead_endsWell <| respond_endsWell rfl rfl
  | crrd n => exact execCrrd_endsWell n s
  | cstx sel base len => exact checked_endsWell <| memWindow_endsWell <| respond_endsWell rfl rfl
  | csrx sel base len ptype => exact checked_endsWell <| memWindow_endsWell <| respond_endsWell rfl rfl
  | stdec raw => exact respondStatus_endsWell raw
  | strdy kind code => exact checked_endsWell <| respond_endsWell rfl rfl
  | fbq => exact execFbq_endsWell s
  | fbx isWrite command length => exact execFbx_endsWell isWrite command length s
  | fpq => exact execFpq_endsWell s
  | fpx payloadLength ptype =>
    exact checked_endsWell <| memWindow_endsWell <| respond_parseSlice_endsWell _ _ payloadLength ptype s
  | reserved0 rest => exact raise_endsWell (by decide)
  | reservedCF op rest => exact raise_endsWell (by decide)

/-! ## The statements about errors -/

/-- Settles O11: of the three endings, the two with an error only answer. -/
theorem errorResponsesChangeNothing : Obligations.ErrorResponsesChangeNothing := by
  intro i s t r h hresponses herr
  cases exec_endsWell i s t h with
  | ok r' hok hresponses' =>
    obtain ⟨rfl, -⟩ := List.cons.inj (hresponses'.symm.trans hresponses)
    exact absurd hok herr
  | raised e => cases hresponses; rfl
  | mismatch => cases hresponses; rfl

/-- Settles O14: of the three endings, the third alone has this code. -/
theorem checksumMismatchOnlyFromFpx : Obligations.ChecksumMismatchOnlyFromFpx := by
  intro i s t r h hresponses herr
  cases exec_endsWell i s t h with
  | ok r' hok hresponses' =>
    obtain ⟨rfl, -⟩ := List.cons.inj (hresponses'.symm.trans hresponses)
    exact absurd (hok.symm.trans herr) (by decide)
  | raised e hne => cases hresponses; exact absurd herr hne
  | mismatch payloadLength ptype hfpx => cases hresponses; exact ⟨⟨payloadLength, ptype, hfpx⟩, rfl, rfl⟩

/-! ## The statements about the step -/

theorem errCode_le (e : Err) : (errCode e).toNat ≤ 3 := by cases e <;> decide

/-- Settles O8: the step performs the request on the state with its move taken, which answers once. -/
theorem everyRequestGetsOneResponse : Obligations.EveryRequestGetsOneResponse := by
  intro s w later hin hwf
  obtain ⟨t, r, hout, -, hinputs, hresponses⟩ := perform_answersOnce { s with inputs := later } w hwf
  exact ⟨t, r, (step_of_request s w later hin).trans hout, hinputs, hresponses, errCode_le r.err⟩

/-- Settles O10. -/
theorem idleBlockKeepsItsState : Obligations.IdleBlockKeepsItsState := step_of_idle

end Sys2Proof.Proofs
end

section
/-! SUPPORT and PROOFS, scope: what a reset asserted in any state leaves. -/

namespace Sys2Proof.Proofs

open Sys2Proof.Machine

/-- The ranges of R8: every byte is a legal `FULL_COUNT`, so the other two fields decide. -/
theorem cfg_wf_iff (c : Cfg) : c.wf = true ↔ c.maxPayload.toNat ≤ 60 ∧ c.maxSpiLen.toNat ≤ 191 := by
  have hfull : c.fullCount.toNat ≤ 255 := Nat.le_of_lt_succ c.fullCount.isLt
  simp [Cfg.wf, hfull]

/-- The host's later moves are no part of a buffer. -/
theorem byte_with_inputs (s : State) (later : List HostMove) (sel : BufSel) (a : Nat) :
    State.byte { s with inputs := later } sel a = s.byte sel a := by
  cases sel with
  | tx => exact byte_tx_congr rfl a
  | rx => exact byte_rx_congr rfl a

/-- Settles O50: the step applies the reset, which a legal configuration allows and an illegal one refuses. -/
theorem resetFromEveryState : Obligations.ResetFromEveryState := by
  intro s cfg txDraw rxDraw later hin
  rw [step_of_reset s cfg txDraw rxDraw later hin]
  split
  next hlegal =>
    have hnext := applyReset_of_wf { s with inputs := later } cfg txDraw rxDraw ((cfg_wf_iff cfg).mpr hlegal)
    exact ⟨_, hnext, rfl, rfl, rfl, rfl, rfl, byte_with_inputs _ later⟩
  next hillegal =>
    have hwf : cfg.wf = false := Bool.eq_false_iff.mpr (mt (cfg_wf_iff cfg).mp hillegal)
    exact applyReset_of_not_wf _ cfg txDraw rxDraw hwf

end Sys2Proof.Proofs
end
